-- ==== Sys2Proof/Word.lean ====
section
/-! DEFINITION. The widths of CORE's values (spec 00_scope.md rules R4, R6; 30_encoding.md rule R63). -/

namespace Sys2Proof

/-- A general register, a timer, a memory byte, the constant `kk`: 8 bits, unsigned (R4, R10, R63). -/
abbrev Byte := BitVec 8

/-- The instruction word, `I`, `pc` and a stack entry: 16 bits, unsigned (R4, R6, R60). -/
abbrev Word := BitVec 16

/-- The absolute byte address `nnn` of an instruction: 12 bits (R63). -/
abbrev Addr12 := BitVec 12

/-- A register index `rx` or `ry` (R64): all sixteen values name a register. -/
abbrev RegIx := BitVec 4

/-- A 4-bit constant or selector: `n`, `n0`, `n1`, `n2`, `n3` (R61, R63). -/
abbrev Nibble := BitVec 4

end Sys2Proof
end

