-- ==== Sys2Proof/Syntax.lean ====
section
/-! DEFINITION. The 35 operation variants of the decoder, in the order of spec/opcode_table.json (30_encoding.md
rule R66), each with the operands its row lists (R63, R64). -/

namespace Sys2Proof

/-- One constructor per row of the opcode map (R66). -/
inductive Instr where
  /-- `00EE` Return (R90). -/
  | ret
  /-- `00E0` ClearDisplay (R140). -/
  | clearDisplay
  /-- `0nnn` CallMachineCode (R91). -/
  | callMachineCode (nnn : Addr12)
  /-- `1nnn` Jump (R92). -/
  | jump (nnn : Addr12)
  /-- `2nnn` CallSubroutine (R93). -/
  | callSubroutine (nnn : Addr12)
  /-- `3xkk` SkipIfRegEqConst (R101). -/
  | skipIfRegEqConst (rx : RegIx) (kk : Byte)
  /-- `4xkk` SkipIfRegNeqConst (R102). -/
  | skipIfRegNeqConst (rx : RegIx) (kk : Byte)
  /-- `5xy0` SkipIfRegEqReg (R103). -/
  | skipIfRegEqReg (rx ry : RegIx)
  /-- `6xkk` SetRegConst (R110). -/
  | setRegConst (rx : RegIx) (kk : Byte)
  /-- `7xkk` AddRegConst (R111). -/
  | addRegConst (rx : RegIx) (kk : Byte)
  /-- `8xy0` CopyReg (R121). -/
  | copyReg (rx ry : RegIx)
  /-- `8xy1` OrReg (R122). -/
  | orReg (rx ry : RegIx)
  /-- `8xy2` AndReg (R123). -/
  | andReg (rx ry : RegIx)
  /-- `8xy3` XorReg (R124). -/
  | xorReg (rx ry : RegIx)
  /-- `8xy4` AddReg (R125). -/
  | addReg (rx ry : RegIx)
  /-- `8xy5` SubReg (R126). -/
  | subReg (rx ry : RegIx)
  /-- `8xy6` ShiftRight; `ry` is decoded and ignored (R127, R72). -/
  | shiftRight (rx ry : RegIx)
  /-- `8xy7` ReverseSubReg (R128). -/
  | reverseSubReg (rx ry : RegIx)
  /-- `8xyE` ShiftLeft; `ry` is decoded and ignored (R129, R72). -/
  | shiftLeft (rx ry : RegIx)
  /-- `9xy0` SkipIfRegNeqReg (R104). -/
  | skipIfRegNeqReg (rx ry : RegIx)
  /-- `Annn` SetAddrRegConst (R112). -/
  | setAddrRegConst (nnn : Addr12)
  /-- `Bnnn` JumpPlusOffset (R94). -/
  | jumpPlusOffset (nnn : Addr12)
  /-- `Cxkk` SetRegRandomMasked; `kk` is the mask (R113). -/
  | setRegRandomMasked (rx : RegIx) (kk : Byte)
  /-- `Dxyn` Draw; `n` is the height (R141). -/
  | draw (rx ry : RegIx) (n : Nibble)
  /-- `Ex9E` KeyPressed (R150). -/
  | keyPressed (rx : RegIx)
  /-- `ExA1` KeyNotPressed (R151). -/
  | keyNotPressed (rx : RegIx)
  /-- `Fx07` GetDelayTimer (R160). -/
  | getDelayTimer (rx : RegIx)
  /-- `Fx0A` WaitKey (R152). -/
  | waitKey (rx : RegIx)
  /-- `Fx15` SetDelayTimer (R161). -/
  | setDelayTimer (rx : RegIx)
  /-- `Fx18` SetSoundTimer (R162). -/
  | setSoundTimer (rx : RegIx)
  /-- `Fx1E` AddAddressRegister (R163). -/
  | addAddressRegister (rx : RegIx)
  /-- `Fx29` SpriteAddressRegister (R164). -/
  | spriteAddressRegister (rx : RegIx)
  /-- `Fx33` StoreBCD (R165). -/
  | storeBCD (rx : RegIx)
  /-- `Fx55` DumpRegisters; `rx` is the number of the last register (R166). -/
  | dumpRegisters (rx : RegIx)
  /-- `Fx65` LoadRegisters; `rx` is the number of the last register (R167). -/
  | loadRegisters (rx : RegIx)
deriving DecidableEq, Repr

end Sys2Proof
end

