-- ==== Sys2Proof/WellFormed.lean ====
section
/-! DEFINITION. Which instruction terms are words of the instruction set. Every operand field admits all its values
(R63, R64); the one exception is that `00E0` and `00EE` are ClearDisplay and Return, not CallMachineCode (R65, R67). -/

namespace Sys2Proof

/-- The instruction is the reading of some word. -/
def Instr.wf : Instr → Bool
  | .callMachineCode nnn => nnn != 0x0E0#12 && nnn != 0x0EE#12
  | .ret | .clearDisplay | .jump _ | .callSubroutine _ | .skipIfRegEqConst _ _ | .skipIfRegNeqConst _ _
  | .skipIfRegEqReg _ _ | .setRegConst _ _ | .addRegConst _ _ | .copyReg _ _ | .orReg _ _ | .andReg _ _
  | .xorReg _ _ | .addReg _ _ | .subReg _ _ | .shiftRight _ _ | .reverseSubReg _ _ | .shiftLeft _ _
  | .skipIfRegNeqReg _ _ | .setAddrRegConst _ | .jumpPlusOffset _ | .setRegRandomMasked _ _ | .draw _ _ _
  | .keyPressed _ | .keyNotPressed _ | .getDelayTimer _ | .waitKey _ | .setDelayTimer _ | .setSoundTimer _
  | .addAddressRegister _ | .spriteAddressRegister _ | .storeBCD _ | .dumpRegisters _ | .loadRegisters _ => true

end Sys2Proof
end

