-- ==== Sys2Proof/Decode.lean ====
section
/-! DEFINITION. The instruction word (30_encoding.md rules R60 to R64), the decoder (R61, R65 to R73, R78), the opcode map
R66 as a table, and the encoder. -/

namespace Sys2Proof

/-- The word of two fetched bytes, the byte at the lower address more significant (R41, R60). -/
def wordOfBytes (b0 b1 : Byte) : Word := b0 ++ b1

/-- `n0`, bits 15:12, the family (R61). -/
def fieldN0 (w : Word) : Nibble := w.extractLsb' 12 4

/-- `rx = n1`, bits 11:8 (R61). -/
def fieldRx (w : Word) : RegIx := w.extractLsb' 8 4

/-- `ry = n2`, bits 7:4 (R61). -/
def fieldRy (w : Word) : RegIx := w.extractLsb' 4 4

/-- `n = n3`, bits 3:0 (R61). -/
def fieldN (w : Word) : Nibble := w.extractLsb' 0 4

/-- `kk`, bits 7:0, the second byte (R61). -/
def fieldKk (w : Word) : Byte := w.extractLsb' 0 8

/-- `nnn`, bits 11:0 (R61). -/
def fieldNnn (w : Word) : Addr12 := w.extractLsb' 0 12

/-- The outcome of decoding a word: one of the 35 operations, or `invalid`, which names the word (R66, R182). -/
inductive Decoded where
  | op (i : Instr)
  | invalid (w : Word)
deriving DecidableEq, Repr

/-- Family 0: the two full-word patterns are tested before `0nnn` (R65, R67). -/
def decodeFamily0 (w : Word) : Instr :=
  if w = 0x00EE#16 then .ret
  else if w = 0x00E0#16 then .clearDisplay
  else .callMachineCode (fieldNnn w)

/-- Family 8 selects by `n3` (R68). -/
def decodeFamily8 (w : Word) : Decoded :=
  match fieldN w with
  | 0x0#4 => .op (.copyReg (fieldRx w) (fieldRy w))
  | 0x1#4 => .op (.orReg (fieldRx w) (fieldRy w))
  | 0x2#4 => .op (.andReg (fieldRx w) (fieldRy w))
  | 0x3#4 => .op (.xorReg (fieldRx w) (fieldRy w))
  | 0x4#4 => .op (.addReg (fieldRx w) (fieldRy w))
  | 0x5#4 => .op (.subReg (fieldRx w) (fieldRy w))
  | 0x6#4 => .op (.shiftRight (fieldRx w) (fieldRy w))
  | 0x7#4 => .op (.reverseSubReg (fieldRx w) (fieldRy w))
  | 0xE#4 => .op (.shiftLeft (fieldRx w) (fieldRy w))
  | _ => .invalid w

/-- Family E selects by the second byte (R69). -/
def decodeFamilyE (w : Word) : Decoded :=
  match fieldKk w with
  | 0x9E#8 => .op (.keyPressed (fieldRx w))
  | 0xA1#8 => .op (.keyNotPressed (fieldRx w))
  | _ => .invalid w

/-- Family F selects by the second byte (R70). -/
def decodeFamilyF (w : Word) : Decoded :=
  match fieldKk w with
  | 0x07#8 => .op (.getDelayTimer (fieldRx w))
  | 0x0A#8 => .op (.waitKey (fieldRx w))
  | 0x15#8 => .op (.setDelayTimer (fieldRx w))
  | 0x18#8 => .op (.setSoundTimer (fieldRx w))
  | 0x1E#8 => .op (.addAddressRegister (fieldRx w))
  | 0x29#8 => .op (.spriteAddressRegister (fieldRx w))
  | 0x33#8 => .op (.storeBCD (fieldRx w))
  | 0x55#8 => .op (.dumpRegisters (fieldRx w))
  | 0x65#8 => .op (.loadRegisters (fieldRx w))
  | _ => .invalid w

/-- `Decode(w)`: total and pure (R66, R78). It dispatches on the high nibble and, by family, on the final nibble
or byte (R61). -/
def decode (w : Word) : Decoded :=
  match fieldN0 w with
  | 0x0#4 => .op (decodeFamily0 w)
  | 0x1#4 => .op (.jump (fieldNnn w))
  | 0x2#4 => .op (.callSubroutine (fieldNnn w))
  | 0x3#4 => .op (.skipIfRegEqConst (fieldRx w) (fieldKk w))
  | 0x4#4 => .op (.skipIfRegNeqConst (fieldRx w) (fieldKk w))
  | 0x5#4 => if fieldN w = 0x0#4 then .op (.skipIfRegEqReg (fieldRx w) (fieldRy w)) else .invalid w
  | 0x6#4 => .op (.setRegConst (fieldRx w) (fieldKk w))
  | 0x7#4 => .op (.addRegConst (fieldRx w) (fieldKk w))
  | 0x8#4 => decodeFamily8 w
  | 0x9#4 => if fieldN w = 0x0#4 then .op (.skipIfRegNeqReg (fieldRx w) (fieldRy w)) else .invalid w
  | 0xA#4 => .op (.setAddrRegConst (fieldNnn w))
  | 0xB#4 => .op (.jumpPlusOffset (fieldNnn w))
  | 0xC#4 => .op (.setRegRandomMasked (fieldRx w) (fieldKk w))
  | 0xD#4 => .op (.draw (fieldRx w) (fieldRy w) (fieldN w))
  | 0xE#4 => decodeFamilyE w
  | 0xF#4 => decodeFamilyF w
  | _ => .invalid w

/-- Why a byte sequence holds no instruction at its start: too few bytes for the two of an instruction (R60, R81),
or a word that matches no row (R73). -/
inductive DecodeError where
  | tooShort (have_ : Nat)
  | invalidOpCode (w : Word)
deriving DecidableEq, Repr

/-- Decoding on any bytes: the first two bytes are the word, the rest is handed back. -/
def decodeBytes : List Byte → Except DecodeError (Instr × List Byte)
  | b0 :: b1 :: rest =>
    match decode (wordOfBytes b0 b1) with
    | .op i => .ok (i, rest)
    | .invalid w => .error (.invalidOpCode w)
  | bs => .error (.tooShort bs.length)

/-- A word of the format `A` (R62). -/
def wordA (family : Nibble) (nnn : Addr12) : Word := family ++ nnn

/-- A word of the format `XK`, and of the format `X`, whose second byte is the selector (R62). -/
def wordXK (family : Nibble) (rx : RegIx) (kk : Byte) : Word := family ++ rx ++ kk

/-- A word of the format `XY`, whose last nibble is the selector, and of the format `XYN` (R62). -/
def wordXY (family : Nibble) (rx ry : RegIx) (n : Nibble) : Word := family ++ rx ++ ry ++ n

/-- The encoder: the word of an instruction, written from the pattern column of R66. -/
def encode : Instr → Word
  | .ret => 0x00EE#16
  | .clearDisplay => 0x00E0#16
  | .callMachineCode nnn => wordA 0x0#4 nnn
  | .jump nnn => wordA 0x1#4 nnn
  | .callSubroutine nnn => wordA 0x2#4 nnn
  | .skipIfRegEqConst rx kk => wordXK 0x3#4 rx kk
  | .skipIfRegNeqConst rx kk => wordXK 0x4#4 rx kk
  | .skipIfRegEqReg rx ry => wordXY 0x5#4 rx ry 0x0#4
  | .setRegConst rx kk => wordXK 0x6#4 rx kk
  | .addRegConst rx kk => wordXK 0x7#4 rx kk
  | .copyReg rx ry => wordXY 0x8#4 rx ry 0x0#4
  | .orReg rx ry => wordXY 0x8#4 rx ry 0x1#4
  | .andReg rx ry => wordXY 0x8#4 rx ry 0x2#4
  | .xorReg rx ry => wordXY 0x8#4 rx ry 0x3#4
  | .addReg rx ry => wordXY 0x8#4 rx ry 0x4#4
  | .subReg rx ry => wordXY 0x8#4 rx ry 0x5#4
  | .shiftRight rx ry => wordXY 0x8#4 rx ry 0x6#4
  | .reverseSubReg rx ry => wordXY 0x8#4 rx ry 0x7#4
  | .shiftLeft rx ry => wordXY 0x8#4 rx ry 0xE#4
  | .skipIfRegNeqReg rx ry => wordXY 0x9#4 rx ry 0x0#4
  | .setAddrRegConst nnn => wordA 0xA#4 nnn
  | .jumpPlusOffset nnn => wordA 0xB#4 nnn
  | .setRegRandomMasked rx kk => wordXK 0xC#4 rx kk
  | .draw rx ry n => wordXY 0xD#4 rx ry n
  | .keyPressed rx => wordXK 0xE#4 rx 0x9E#8
  | .keyNotPressed rx => wordXK 0xE#4 rx 0xA1#8
  | .getDelayTimer rx => wordXK 0xF#4 rx 0x07#8
  | .waitKey rx => wordXK 0xF#4 rx 0x0A#8
  | .setDelayTimer rx => wordXK 0xF#4 rx 0x15#8
  | .setSoundTimer rx => wordXK 0xF#4 rx 0x18#8
  | .addAddressRegister rx => wordXK 0xF#4 rx 0x1E#8
  | .spriteAddressRegister rx => wordXK 0xF#4 rx 0x29#8
  | .storeBCD rx => wordXK 0xF#4 rx 0x33#8
  | .dumpRegisters rx => wordXK 0xF#4 rx 0x55#8
  | .loadRegisters rx => wordXK 0xF#4 rx 0x65#8

/-- The two bytes of a word as memory holds them, more significant first (R41). -/
def bytesOfWord (w : Word) : List Byte := [w.extractLsb' 8 8, w.extractLsb' 0 8]

/-- The bytes of an instruction in memory order. -/
def encodeBytes (i : Instr) : List Byte := bytesOfWord (encode i)

/-- One row of the opcode map R66: the word decodes to the row iff `w and mask = fixed`. -/
structure OpcodeRow where
  mask : Word
  fixed : Word
  build : Word → Instr

/-- A row with the format `A` (R62). -/
def rowA (family : Nibble) (mk : Addr12 → Instr) : OpcodeRow :=
  ⟨0xF000#16, wordA family 0x000#12, fun w => mk (fieldNnn w)⟩

/-- A row with the format `XK` (R62). -/
def rowXK (family : Nibble) (mk : RegIx → Byte → Instr) : OpcodeRow :=
  ⟨0xF000#16, wordA family 0x000#12, fun w => mk (fieldRx w) (fieldKk w)⟩

/-- A row with the format `XY` (R62). -/
def rowXY (family selector : Nibble) (mk : RegIx → RegIx → Instr) : OpcodeRow :=
  ⟨0xF00F#16, wordXY family 0x0#4 0x0#4 selector, fun w => mk (fieldRx w) (fieldRy w)⟩

/-- A row with the format `X` (R62). -/
def rowX (family : Nibble) (selector : Byte) (mk : RegIx → Instr) : OpcodeRow :=
  ⟨0xF0FF#16, wordXK family 0x0#4 selector, fun w => mk (fieldRx w)⟩

/-- Rows 1 to 10 of R66, in its order. -/
def opcodeRows1 : List OpcodeRow :=
  [⟨0xFFFF#16, 0x00EE#16, fun _ => .ret⟩, ⟨0xFFFF#16, 0x00E0#16, fun _ => .clearDisplay⟩,
   rowA 0x0#4 .callMachineCode, rowA 0x1#4 .jump, rowA 0x2#4 .callSubroutine,
   rowXK 0x3#4 .skipIfRegEqConst, rowXK 0x4#4 .skipIfRegNeqConst, rowXY 0x5#4 0x0#4 .skipIfRegEqReg,
   rowXK 0x6#4 .setRegConst, rowXK 0x7#4 .addRegConst]

/-- Rows 11 to 24 of R66, in its order. -/
def opcodeRows2 : List OpcodeRow :=
  [rowXY 0x8#4 0x0#4 .copyReg, rowXY 0x8#4 0x1#4 .orReg, rowXY 0x8#4 0x2#4 .andReg, rowXY 0x8#4 0x3#4 .xorReg,
   rowXY 0x8#4 0x4#4 .addReg, rowXY 0x8#4 0x5#4 .subReg, rowXY 0x8#4 0x6#4 .shiftRight,
   rowXY 0x8#4 0x7#4 .reverseSubReg, rowXY 0x8#4 0xE#4 .shiftLeft, rowXY 0x9#4 0x0#4 .skipIfRegNeqReg,
   rowA 0xA#4 .setAddrRegConst, rowA 0xB#4 .jumpPlusOffset, rowXK 0xC#4 .setRegRandomMasked,
   ⟨0xF000#16, 0xD000#16, fun w => .draw (fieldRx w) (fieldRy w) (fieldN w)⟩]

/-- Rows 25 to 35 of R66, in its order. -/
def opcodeRows3 : List OpcodeRow :=
  [rowX 0xE#4 0x9E#8 .keyPressed, rowX 0xE#4 0xA1#8 .keyNotPressed, rowX 0xF#4 0x07#8 .getDelayTimer,
   rowX 0xF#4 0x0A#8 .waitKey, rowX 0xF#4 0x15#8 .setDelayTimer, rowX 0xF#4 0x18#8 .setSoundTimer,
   rowX 0xF#4 0x1E#8 .addAddressRegister, rowX 0xF#4 0x29#8 .spriteAddressRegister, rowX 0xF#4 0x33#8 .storeBCD,
   rowX 0xF#4 0x55#8 .dumpRegisters, rowX 0xF#4 0x65#8 .loadRegisters]

/-- The opcode map R66, all 35 rows; the first row that matches is taken (R65). -/
def opcodeMap : List OpcodeRow := opcodeRows1 ++ opcodeRows2 ++ opcodeRows3

/-- Decoding by the `match`/`mask` columns of R66: a second, independent reading of the map, beside `decode`. -/
def decodeByMap (w : Word) : Decoded :=
  match opcodeMap.find? (fun r => w &&& r.mask == r.fixed) with
  | some r => .op (r.build w)
  | none => .invalid w

/-- The instruction the decoder reads from an instruction whose bits are `w`, numbered as spec/opcode_table.json
numbers them (bits 15..0 of the one 16-bit word); the bits above `nbits` are 0. -/
def decodeTableWord (nbits w : Nat) : Option Instr :=
  match decodeBytes (bytesOfWord (BitVec.ofNat 16 (w % 2 ^ nbits))) with
  | .ok (i, _) => some i
  | .error _ => none

end Sys2Proof
end

