-- ==== Sys2Proof/Config.lean ====
section
/-! DEFINITION. What is fixed for the machine: its sizes (R4), the arguments of `Reset` (R5), the parameter
`STACK_DEPTH` (R6), and the free values: the byte the Random Source answers (R27), and the one Reset on which two rules
disagree (R210, R212). -/

namespace Sys2Proof

/-- `MEM_SIZE`: bytes of memory, addresses 0..4095 (R4, R23). -/
def Config.memSize : Nat := 4096

/-- `DISP_W`: framebuffer width in pixels (R4). -/
def Config.dispW : Nat := 64

/-- `DISP_H`: framebuffer height in pixels (R4). -/
def Config.dispH : Nat := 32

/-- `SPRITE_W`: pixels in one sprite row (R4). -/
def Config.spriteW : Nat := 8

/-- FREE VALUE. The byte answered to request number `k` (counted from 0 at reset) of a Random Source seeded with
`seed`. R27: an oracle "under no law except that each element is in 0..255 and that the sequence is a function
of `SEED` alone". It has no body, so a statement about it holds for every sequence (log entry 3). -/
opaque Config.randByte (seed k : Nat) : Byte

/-- FREE VALUE. Does a Reset with INITIAL_PC 4095 load an image of exactly one byte? R210 with R214 says yes, the last
sentence of R212 says no, and no ruling of the spec sets either aside. It has no body, so a statement about it holds for
both answers (log entry 10). -/
opaque Config.loadsAtLastAddress : Bool

/-- The arguments of `Reset` (R5) together with the open parameter `STACK_DEPTH` (R6), each with the default
the spec gives it. `seed` has no default in the spec (its value is a DESIGN CHOICE, log entry 3, on which nothing rests). -/
structure ResetConfig where
  /-- `FILL`: every memory byte before the program image is written. -/
  fill : Byte := 0x00#8
  /-- `INITIAL_PC`: reset value of pc, and where the program image is written. -/
  initialPc : Word := 0x0200#16
  /-- `SEED` of the Random Source. -/
  seed : Nat := 0
  /-- `STACK_DEPTH`: `none` is the spec's `unbounded`. -/
  stackDepth : Option Nat := none
  /-- `PROGRAM`: possibly empty or absent. -/
  program : Option (List Byte) := none
deriving DecidableEq, Repr

end Sys2Proof
end

