-- ==== Sys2Proof/Machine/State.lean ====
section
/-! DEFINITION. All state of CORE (10_state.md rules R10 to R29) as plain data, the fault kinds (60_exceptions.md rule R180),
and the state after reset (R29). -/

namespace Sys2Proof.Machine

/-- Memory: (address, byte) pairs, addresses strictly rising, no entry equal to what an unlisted address reads as
(`Memory.unlisted`). The whole address space is 0..4095 (R23, R40). -/
abbrev Memory := List Host.Cell

/-- What a byte of memory that is not listed reads as: the default of the reset argument `FILL`, 0x00
(R5, R29 "initial memory fill byte (default 0)"). -/
def Memory.unlisted : Byte := 0x00#8

/-- The framebuffer: 32 rows of 64 one-bit pixels; `FB[x, y]` is bit `x` of row `y` (R25). -/
abbrev Display := Vector (BitVec 64) 32

/-- The Random Source as a model sees it (R27): its seed, and how many requests it has answered. The byte it answers
next is the free value `Config.randByte seed requests`. -/
structure RandomSource where
  seed : Nat
  requests : Nat
deriving DecidableEq, Repr

/-- The six fault kinds of a step with the information each carries (R180). In this model a fault is TAKEN as the spec
describes it (R85, R187, R188): the step answers a next state that records it in `result`, since CORE stays running
(R192). So no step ends in `Host.Outcome.fault`; this type is also the record's type. Log entry 1. -/
inductive Fault where
  /-- Raised by the fetch of every step, Draw, StoreBCD, DumpRegisters, LoadRegisters when the range of `n` bytes at
  `addr` leaves 0..4095 (R181). Safe: the spec's own outcome. -/
  | memoryOutOfBounds (addr n : Nat)
  /-- Raised by decoding a word that matches no row (R182). Safe: the spec's own outcome. -/
  | invalidOpCode (w : Word)
  /-- Raised by Return with an empty stack (R183). Safe: the spec's own outcome. -/
  | invalidReturn
  /-- Raised by CallMachineCode, KeyPressed, KeyNotPressed, WaitKey, SpriteAddressRegister, always (R184).
  Safe: the spec's own outcome. -/
  | unsupportedOperation (w : Word)
  /-- Raised by Draw when a referenced pixel lies outside the grid (R185). Safe: the spec's own outcome. -/
  | displayOutOfBounds (x y h : Nat)
  /-- Raised by CallSubroutine when `STACK_DEPTH` is finite and reached (R186). Safe: the spec's own outcome. -/
  | stackOverflow (w : Word)
deriving DecidableEq, Repr

/-- Reasons for having no meaning. -/
inductive Refusal where
  /-- An instruction that has no meaning in this model yet: raised by such an arm of `exec`; none is left. Safe. -/
  | notModelled (mnemonic : String)
deriving DecidableEq, Repr

/-- What a `Step()` hands to the host besides the state it leaves: `Ok` or exactly one fault (R85). -/
inductive Result where
  | ok
  | raised (f : Fault)
deriving DecidableEq, Repr

/-- The machine. `V` to `rand` are CORE's architectural state (R10 to R28); `stackDepth` is the parameter of R6, which
no instruction changes; `result` and `firstFault` are the model's own records of what steps have answered (log entries
1, 2), which no step reads. -/
structure State where
  /-- V0..VF (R10); VF is `V[15]` (R12). -/
  V : Vector Byte 16
  /-- The address register (R14). -/
  I : Word
  /-- The program counter (R16). -/
  pc : Word
  /-- The call stack, top entry first (R19, R20). -/
  stack : List Word
  /-- The delay timer (R21). -/
  DT : Byte
  /-- The sound timer (R21). -/
  ST : Byte
  /-- The 4096 bytes of memory (R23). -/
  mem : Memory
  /-- The framebuffer (R25). -/
  FB : Display
  /-- The Random Source (R27). -/
  rand : RandomSource
  /-- `STACK_DEPTH` (R6, R20); `none` is `unbounded`. -/
  stackDepth : Option Nat
  /-- The result of the last step (R85); `ok` before the first. -/
  result : Result
  /-- The first fault of the run (R193). -/
  firstFault : Option Fault
deriving DecidableEq, Repr

/-- The state right after `Reset` with every argument at its default (R29, R210). -/
def State.reset : State where
  V := Vector.replicate 16 0x00#8
  I := 0x0000#16
  pc := 0x0200#16
  stack := []
  DT := 0x00#8
  ST := 0x00#8
  mem := []
  FB := Vector.replicate 32 0#64
  rand := ⟨0, 0⟩
  stackDepth := none
  result := .ok
  firstFault := none

end Sys2Proof.Machine
end

