-- ==== Sys2Proof/Machine/Ops.lean ====
section
/-! DEFINITION. The named operations over memory, registers, the stack, the timers, the Random Source and pc; raising a
fault; fetching and storing an instruction's bytes. -/

namespace Sys2Proof.Machine

/-! Memory as data -/

/-- The byte at address `a` (R23); an unlisted address reads as `Memory.unlisted`. -/
def Memory.read : Memory → Nat → Byte
  | [], _ => Memory.unlisted
  | (a', b) :: m, a => if a = a' then b else Memory.read m a

/-- Memory without any entry for `a`. -/
def Memory.erase (m : Memory) (a : Nat) : Memory := m.filter (fun c => c.1 != a)

/-- Puts the entry for `a` before the first entry of a greater address. -/
def Memory.insert : Memory → Nat → Byte → Memory
  | [], a, b => [(a, b)]
  | (a', b') :: m, a, b =>
    if a < a' then (a, b) :: (a', b') :: m else (a', b') :: Memory.insert m a b

/-- `mem[a] <- b`, keeping the canonical form: writing what an unlisted address reads as removes the entry. -/
def Memory.write (m : Memory) (a : Nat) (b : Byte) : Memory :=
  if b = Memory.unlisted then m.erase a else (m.erase a).insert a b

/-- `mem[a + k] <- bytes[k]` in ascending order (R42, R46). -/
def Memory.writeBytes (m : Memory) (a : Nat) : List Byte → Memory
  | [] => m
  | b :: bs => (m.write a b).writeBytes (a + 1) bs

/-- `mem[a], ..., mem[a + n - 1]`, lowest address first (R45). -/
def Memory.readBytes (m : Memory) (a : Nat) : Nat → List Byte
  | 0 => []
  | n + 1 => m.read a :: m.readBytes (a + 1) n

/-- The addresses from `lo` on are strictly rising and below 4096, and no entry holds the unlisted byte. -/
def Memory.wfFrom : Nat → Memory → Bool
  | _, [] => true
  | lo, (a, b) :: m => decide (lo ≤ a) && decide (a < Config.memSize) && b != Memory.unlisted && Memory.wfFrom (a + 1) m

/-- The canonical form of memory. -/
def Memory.wf (m : Memory) : Bool := Memory.wfFrom 0 m

/-- Memory in which every byte is `f` (the first line of `Reset`, R210). -/
def Memory.filled (f : Byte) : Memory :=
  if f = Memory.unlisted then [] else (List.range Config.memSize).map (fun a => (a, f))

/-! The bounds contract -/

/-- An access to `n` bytes at `a` is in range: no byte at all, or `a + n - 1 <= 4095` over the integers (R44). -/
def inRange (a n : Nat) : Bool := n == 0 || decide (a + n ≤ Config.memSize)

/-- `MemRead(a, n)` (R45). -/
def State.memRead (s : State) (a n : Nat) : Except Fault (List Byte) :=
  if inRange a n then .ok (s.mem.readBytes a n) else .error (.memoryOutOfBounds a n)

/-- `MemWrite(a, n, bytes)` with `n` the number of bytes (R46): the whole range is checked before any byte is written. -/
def State.memWrite (s : State) (a : Nat) (bytes : List Byte) : Except Fault State :=
  if inRange a bytes.length then .ok { s with mem := s.mem.writeBytes a bytes }
  else .error (.memoryOutOfBounds a bytes.length)

/-! Registers -/

/-- `V[r]` (R10). -/
def State.reg (s : State) (r : RegIx) : Byte := s.V[r.toNat]

/-- `V[r] <- v` (R10). -/
def State.setReg (s : State) (r : RegIx) (v : Byte) : State := { s with V := s.V.set r.toNat v }

/-- The index of VF (R12). -/
abbrev vf : RegIx := 0xF#4

/-- `I <- v` (R14). -/
def State.setAddr (s : State) (v : Word) : State := { s with I := v }

/-- `pc <- target` (R16). -/
def State.setPc (s : State) (target : Word) : State := { s with pc := target }

/-- `DT <- v` (R21). -/
def State.setDT (s : State) (v : Byte) : State := { s with DT := v }

/-- `ST <- v` (R21). -/
def State.setST (s : State) (v : Byte) : State := { s with ST := v }

/-! The call stack -/

/-- `push(stack, v)` (R19). -/
def State.push (s : State) (v : Word) : State := { s with stack := v :: s.stack }

/-- `pop(stack)`: the top entry and the state without it; nothing on an empty stack (R19). -/
def State.pop (s : State) : Option (Word × State) :=
  match s.stack with
  | [] => none
  | top :: rest => some (top, { s with stack := rest })

/-- `STACK_DEPTH is finite and len(stack) = STACK_DEPTH` (R93); a longer stack, which no run reaches, is full too. -/
def State.stackFull (s : State) : Bool :=
  match s.stackDepth with
  | none => false
  | some d => decide (d ≤ s.stack.length)

/-! The Random Source -/

/-- `RandByte()`: the byte of this request, and the source advanced by it (R27, R113). -/
def State.randByte (s : State) : Byte × State :=
  (Config.randByte s.rand.seed s.rand.requests, { s with rand := { s.rand with requests := s.rand.requests + 1 } })

/-! Faults -/

/-- `raise f`: the step's result is `f`, the state is what the step had made of it (R187); the run's first fault is
kept (R193). Nothing is saved, no mode changes, no vector is read, pc stays as the step had made it (R187, R188). -/
def State.raise (s : State) (f : Fault) : State :=
  { s with result := .raised f, firstFault := s.firstFault.or (some f) }

/-- A step that ends by raising `f`. -/
def raised (s : State) (f : Fault) : Host.Outcome State Fault Refusal := .next (s.raise f)

/-- `raise UnsupportedOperation(w)` with `w` the word of the instruction (R184). -/
def unsupported (i : Instr) (s : State) : Host.Outcome State Fault Refusal :=
  raised s (.unsupportedOperation (encode i))

/-- The numeric code of a fault kind, 1 to 6 (R180; the codes are the spec's decision D20). -/
def Fault.code : Fault → Nat
  | .memoryOutOfBounds _ _ => 1
  | .invalidOpCode _ => 2
  | .invalidReturn => 3
  | .unsupportedOperation _ => 4
  | .displayOutOfBounds _ _ _ => 5
  | .stackOverflow _ => 6

/-- The numeric code of a step's result: 0 for Ok (R180; D20). -/
def Result.code : Result → Nat
  | .ok => 0
  | .raised f => f.code

/-! The phases common to every step -/

/-- The result of a step is `Ok` unless it raises (R85). -/
def State.beginStep (s : State) : State := { s with result := .ok }

/-- `pc <- pc + 2` (R82). -/
def State.advance (s : State) : State := s.setPc (s.pc + 2#16)

/-- The fetch: `MemRead(pc, 2)`, first byte more significant (R41, R81). -/
def State.fetch (s : State) : Except Fault Word :=
  match s.memRead s.pc.toNat 2 with
  | .ok bytes => .ok (wordOfBytes (bytes.getD 0 0x00#8) (bytes.getD 1 0x00#8))
  | .error f => .error f

/-- The state with the two bytes of `w` stored where the next fetch reads them. Where the pc is one no fetch can
succeed at (R81), the pc is first put at the default INITIAL_PC. Used by `State.withFetchWord` only. -/
def State.placeWord (s : State) (w : Word) : State :=
  let at_ := if inRange s.pc.toNat 2 then s.pc else State.reset.pc
  { s with pc := at_, mem := s.mem.writeBytes at_.toNat (bytesOfWord w) }

end Sys2Proof.Machine
end

