-- ==== Sys2Proof/Machine/Flags.lean ====
section
/-! DEFINITION. The values the flag register VF receives (10_state.md rule R13; 44_alu.md rules R125 to R131). Each is computed
from the operands over the integers. -/

namespace Sys2Proof.Machine

/-- A condition used as a number is 1 when true and 0 when false (00_scope.md section 6.1). -/
def flagByte (b : Bool) : Byte := if b then 0x01#8 else 0x00#8

/-- Carry out of bit 7: `a + b > 255` (R125). -/
def carryAdd (a b : Byte) : Bool := decide (a.toNat + b.toNat > 255)

/-- No borrow in `a - b`: `a >= b` (R126, R128). -/
def noBorrow (a b : Byte) : Bool := decide (a.toNat ≥ b.toNat)

/-- The bit a right shift drops: bit 0 (R127). -/
def bitOutRight (a : Byte) : Bool := a.getLsbD 0

/-- The bit a left shift drops: bit 7 (R129). -/
def bitOutLeft (a : Byte) : Bool := a.getLsbD 7

/-- The two writes of a flag-writing ALU instruction in their order: `V[15] <- flag`, then `V[rx] <- result` (R130). -/
def State.writeFlagged (s : State) (rx : RegIx) (flag : Bool) (result : Byte) : State :=
  (s.setReg vf (flagByte flag)).setReg rx result

end Sys2Proof.Machine
end

