-- ==== Sys2Proof/Machine/Operands.lean ====
section
/-! DEFINITION. The operand forms: constants widened, the base address, register blocks, decimal digits, and the 8-bit and
16-bit results computed over the integers and narrowed once (30_encoding.md rules R63, R64; 44_alu.md rule R131). -/

namespace Sys2Proof.Machine

/-- `nnn` as a 16-bit address, widened with zeros (R63). -/
def addrOfConst (nnn : Addr12) : Word := nnn.setWidth 16

/-- `nnn + V[0]` as pc takes it: the integer sum, which fits 16 bits; no mask, no wrap (R94). -/
def addrPlus (nnn : Addr12) (v : Byte) : Word := BitVec.ofNat 16 (nnn.toNat + v.toNat)

/-- `(I + V[rx]) mod 65536` (R163). -/
def addrAdd (i : Word) (v : Byte) : Word := BitVec.ofNat 16 (i.toNat + v.toNat)

/-- The base address of a data access: the full 16-bit value of `I`, unmasked (R47). -/
def State.base (s : State) : Nat := s.I.toNat

/-- `(a + b) mod 256` (R131). -/
def byteAdd (a b : Byte) : Byte := BitVec.ofNat 8 (a.toNat + b.toNat)

/-- `(a - b) mod 256` with the non-negative remainder (R131). -/
def byteSub (a b : Byte) : Byte := BitVec.ofInt 8 ((a.toNat : Int) - (b.toNat : Int))

/-- `a >> 1`, zero into bit 7 (R127). -/
def byteShr (a : Byte) : Byte := BitVec.ofNat 8 (a.toNat / 2)

/-- `(a << 1) mod 256`, zero into bit 0 (R129). -/
def byteShl (a : Byte) : Byte := BitVec.ofNat 8 (a.toNat * 2)

/-- The hundreds, tens and ones of a value 0..255 (R165). -/
def bcdDigits (v : Byte) : List Byte :=
  [BitVec.ofNat 8 (v.toNat / 100), BitVec.ofNat 8 (v.toNat / 10 % 10), BitVec.ofNat 8 (v.toNat % 10)]

/-- `[V[0], V[1], ..., V[n]]` (R166). -/
def State.regsUpTo (s : State) (n : RegIx) : List Byte := s.V.toList.take (n.toNat + 1)

/-- `V[k] <- bytes[0], V[k+1] <- bytes[1], ...` (R167). -/
def loadFrom (k : Nat) : List Byte → Vector Byte 16 → Vector Byte 16
  | [], v => v
  | b :: bs, v => loadFrom (k + 1) bs (v.setIfInBounds k b)

/-- `V[k] <- bytes[k]` from register 0 on (R167). -/
def State.loadRegs (s : State) (bytes : List Byte) : State := { s with V := loadFrom 0 bytes s.V }

end Sys2Proof.Machine
end

