-- ==== Sys2Proof/Machine/Alu.lean ====
section
/-! DEFINITION. The ALU family (44_alu.md). Both operands are read from `s` before anything is written (R120). -/

namespace Sys2Proof.Machine

/-- CopyReg `8xy0` (R121). -/
def execCopyReg (rx ry : RegIx) (s : State) : Host.Outcome State Fault Refusal :=
  .next (s.setReg rx (s.reg ry))

/-- OrReg `8xy1` (R122). -/
def execOrReg (rx ry : RegIx) (s : State) : Host.Outcome State Fault Refusal :=
  .next (s.setReg rx (s.reg rx ||| s.reg ry))

/-- AndReg `8xy2` (R123). -/
def execAndReg (rx ry : RegIx) (s : State) : Host.Outcome State Fault Refusal :=
  .next (s.setReg rx (s.reg rx &&& s.reg ry))

/-- XorReg `8xy3` (R124). -/
def execXorReg (rx ry : RegIx) (s : State) : Host.Outcome State Fault Refusal :=
  .next (s.setReg rx (s.reg rx ^^^ s.reg ry))

/-- AddReg `8xy4` (R125). -/
def execAddReg (rx ry : RegIx) (s : State) : Host.Outcome State Fault Refusal :=
  .next (s.writeFlagged rx (carryAdd (s.reg rx) (s.reg ry)) (byteAdd (s.reg rx) (s.reg ry)))

/-- SubReg `8xy5` (R126). -/
def execSubReg (rx ry : RegIx) (s : State) : Host.Outcome State Fault Refusal :=
  .next (s.writeFlagged rx (noBorrow (s.reg rx) (s.reg ry)) (byteSub (s.reg rx) (s.reg ry)))

/-- ShiftRight `8xy6` (R127): `V[rx]` in place, `ry` ignored (R72). -/
def execShiftRight (rx _ry : RegIx) (s : State) : Host.Outcome State Fault Refusal :=
  .next (s.writeFlagged rx (bitOutRight (s.reg rx)) (byteShr (s.reg rx)))

/-- ReverseSubReg `8xy7` (R128). -/
def execReverseSubReg (rx ry : RegIx) (s : State) : Host.Outcome State Fault Refusal :=
  .next (s.writeFlagged rx (noBorrow (s.reg ry) (s.reg rx)) (byteSub (s.reg ry) (s.reg rx)))

/-- ShiftLeft `8xyE` (R129): `V[rx]` in place, `ry` ignored (R72). -/
def execShiftLeft (rx _ry : RegIx) (s : State) : Host.Outcome State Fault Refusal :=
  .next (s.writeFlagged rx (bitOutLeft (s.reg rx)) (byteShl (s.reg rx)))

end Sys2Proof.Machine
end

