-- ==== Sys2Proof/Machine/Const.lean ====
section
/-! DEFINITION. The constant loads (43_const.md). None of them writes VF as a side effect and none can fault. -/

namespace Sys2Proof.Machine

/-- SetRegConst `6xkk` (R110). -/
def execSetRegConst (rx : RegIx) (kk : Byte) (s : State) : Host.Outcome State Fault Refusal :=
  .next (s.setReg rx kk)

/-- AddRegConst `7xkk` (R111): wraps at 8 bits, no flag. -/
def execAddRegConst (rx : RegIx) (kk : Byte) (s : State) : Host.Outcome State Fault Refusal :=
  .next (s.setReg rx (byteAdd (s.reg rx) kk))

/-- SetAddrRegConst `Annn` (R112). -/
def execSetAddrRegConst (nnn : Addr12) (s : State) : Host.Outcome State Fault Refusal :=
  .next (s.setAddr (addrOfConst nnn))

/-- SetRegRandomMasked `Cxkk` (R113): exactly one request to the Random Source, also for the mask 0. -/
def execSetRegRandomMasked (rx : RegIx) (kk : Byte) (s : State) : Host.Outcome State Fault Refusal :=
  .next (s.randByte.2.setReg rx (s.randByte.1 &&& kk))

end Sys2Proof.Machine
end

