-- ==== Sys2Proof/Machine/Surface.lean ====
section
/-! DEFINITION. The Display Surface: `clear`, the bounds of a draw, and the XOR compositor that reports collisions
(45_display.md rules R142 to R145). -/

namespace Sys2Proof.Machine

/-- `FB[x, y]` (R25); a position outside the grid reads as unset (no instruction asks for one, R145). -/
def Display.pixel (d : Display) (x y : Nat) : Bool :=
  if h : y < 32 then d[y].getLsbD x else false

/-- One row with the pixel of column `x` set to `b`. -/
def rowWith (row : BitVec 64) (x : Nat) (b : Bool) : BitVec 64 :=
  if b then row ||| (1#64 <<< x) else row &&& ~~~(1#64 <<< x)

/-- `FB[x, y] <- b`. -/
def Display.setPixel (d : Display) (x y : Nat) (b : Bool) : Display :=
  if h : y < 32 then d.set y (rowWith d[y] x b) else d

/-- `clear()`: every pixel unset (R142). -/
def Display.clear : Display := Vector.replicate 32 0#64

/-- `bit[c]` of a sprite row: the most significant bit of the byte is column 0 (R144). -/
def spriteBit (row : Byte) (c : Nat) : Bool := row.getLsbD (7 - c)

/-- The body of the compositor's loops: one pixel, and whether any pixel has collided so far (R143). -/
def plot (x y : Nat) (bit : Bool) (acc : Display × Bool) : Display × Bool :=
  let old := acc.1.pixel x y
  (acc.1.setPixel x y (old ^^ bit), acc.2 || (old && bit))

/-- One sprite row: columns left to right, from column `c`, `k` of them (R143). -/
def drawRowFrom (x y : Nat) (row : Byte) (c : Nat) : Nat → Display × Bool → Display × Bool
  | 0, acc => acc
  | k + 1, acc => drawRowFrom x y row (c + 1) k (plot (x + c) y (spriteBit row c) acc)

/-- `draw(x, y, rows)`: rows top to bottom (R143). -/
def drawRows (x y : Nat) : List Byte → Display × Bool → Display × Bool
  | [], acc => acc
  | row :: rows, acc => drawRows x (y + 1) rows (drawRowFrom x y row 0 Config.spriteW acc)

/-- The test of R145: some referenced pixel lies outside the grid. -/
def drawOutOfBounds (x y h : Nat) : Bool :=
  decide (1 ≤ h) && (decide (x + 7 > 63) || decide (y + h - 1 > 31))

end Sys2Proof.Machine
end

