-- ==== Sys2Proof/Machine/Draw.lean ====
section
/-! DEFINITION. The display instructions (45_display.md). -/

namespace Sys2Proof.Machine

/-- ClearDisplay `00E0` (R140). -/
def execClearDisplay (s : State) : Host.Outcome State Fault Refusal :=
  .next { s with FB := Display.clear }

/-- The state after a draw that has passed its checks: the pixels composited, then `V[15] <- collided` (R141, R143). -/
def State.composite (s : State) (x y : Nat) (rows : List Byte) : State :=
  { s with FB := (drawRows x y rows (s.FB, false)).1 }.setReg vf (flagByte (drawRows x y rows (s.FB, false)).2)

/-- Draw `Dxyn` (R141): the rows are read first, then the grid is checked (R189), and only then is anything written. -/
def execDraw (rx ry : RegIx) (n : Nibble) (s : State) : Host.Outcome State Fault Refusal :=
  match s.memRead s.base n.toNat with
  | .error f => raised s f
  | .ok rows =>
    if drawOutOfBounds (s.reg rx).toNat (s.reg ry).toNat n.toNat then
      raised s (.displayOutOfBounds (s.reg rx).toNat (s.reg ry).toNat n.toNat)
    else .next (s.composite (s.reg rx).toNat (s.reg ry).toNat rows)

end Sys2Proof.Machine
end

