-- ==== Sys2Proof/Machine/Flow.lean ====
section
/-! DEFINITION. Control transfer (41_flow.md). In every meaning `s` is the state at the start of the execute phase: pc is
already advanced (40_step.md rule R82). -/

namespace Sys2Proof.Machine

/-- Return `00EE` (R90). -/
def execRet (s : State) : Host.Outcome State Fault Refusal :=
  match s.pop with
  | none => raised s .invalidReturn
  | some (target, s') => .next (s'.setPc target)

/-- CallMachineCode `0nnn` (R91): rejected as unsupported, always. -/
def execCallMachineCode (nnn : Addr12) (s : State) : Host.Outcome State Fault Refusal :=
  unsupported (.callMachineCode nnn) s

/-- Jump `1nnn` (R92). -/
def execJump (nnn : Addr12) (s : State) : Host.Outcome State Fault Refusal :=
  .next (s.setPc (addrOfConst nnn))

/-- CallSubroutine `2nnn` (R93). -/
def execCallSubroutine (nnn : Addr12) (s : State) : Host.Outcome State Fault Refusal :=
  if s.stackFull then raised s (.stackOverflow (encode (.callSubroutine nnn)))
  else .next ((s.push s.pc).setPc (addrOfConst nnn))

/-- JumpPlusOffset `Bnnn` (R94). -/
def execJumpPlusOffset (nnn : Addr12) (s : State) : Host.Outcome State Fault Refusal :=
  .next (s.setPc (addrPlus nnn (s.reg 0x0#4)))

end Sys2Proof.Machine
end

