-- ==== Sys2Proof/Machine/Keys.lean ====
section
/-! DEFINITION. The keyboard instructions (46_keys.md): each raises UnsupportedOperation, which is the whole of its effect. -/

namespace Sys2Proof.Machine

/-- KeyPressed `Ex9E` (R150). -/
def execKeyPressed (rx : RegIx) (s : State) : Host.Outcome State Fault Refusal :=
  unsupported (.keyPressed rx) s

/-- KeyNotPressed `ExA1` (R151). -/
def execKeyNotPressed (rx : RegIx) (s : State) : Host.Outcome State Fault Refusal :=
  unsupported (.keyNotPressed rx) s

/-- WaitKey `Fx0A` (R152): it does not wait. -/
def execWaitKey (rx : RegIx) (s : State) : Host.Outcome State Fault Refusal :=
  unsupported (.waitKey rx) s

end Sys2Proof.Machine
end

