-- ==== Sys2Proof/Machine/Misc.lean ====
section
/-! DEFINITION. The F family (47_misc.md): timers, the address register, BCD, register dump and load. -/

namespace Sys2Proof.Machine

/-- GetDelayTimer `Fx07` (R160). -/
def execGetDelayTimer (rx : RegIx) (s : State) : Host.Outcome State Fault Refusal :=
  .next (s.setReg rx s.DT)

/-- SetDelayTimer `Fx15` (R161). -/
def execSetDelayTimer (rx : RegIx) (s : State) : Host.Outcome State Fault Refusal :=
  .next (s.setDT (s.reg rx))

/-- SetSoundTimer `Fx18` (R162). -/
def execSetSoundTimer (rx : RegIx) (s : State) : Host.Outcome State Fault Refusal :=
  .next (s.setST (s.reg rx))

/-- AddAddressRegister `Fx1E` (R163): no flag. -/
def execAddAddressRegister (rx : RegIx) (s : State) : Host.Outcome State Fault Refusal :=
  .next (s.setAddr (addrAdd s.I (s.reg rx)))

/-- SpriteAddressRegister `Fx29` (R164): rejected as unsupported, always. -/
def execSpriteAddressRegister (rx : RegIx) (s : State) : Host.Outcome State Fault Refusal :=
  unsupported (.spriteAddressRegister rx) s

/-- The end of an instruction that stores `bytes` at `I` and does nothing else (R46, R47). -/
def storeAtBase (bytes : List Byte) (s : State) : Host.Outcome State Fault Refusal :=
  match s.memWrite s.base bytes with
  | .error f => raised s f
  | .ok s' => .next s'

/-- StoreBCD `Fx33` (R165). -/
def execStoreBCD (rx : RegIx) (s : State) : Host.Outcome State Fault Refusal :=
  storeAtBase (bcdDigits (s.reg rx)) s

/-- DumpRegisters `Fx55` (R166): `rx` is the number of the last register copied; `I` is unchanged. -/
def execDumpRegisters (rx : RegIx) (s : State) : Host.Outcome State Fault Refusal :=
  storeAtBase (s.regsUpTo rx) s

/-- LoadRegisters `Fx65` (R167): `rx` is the number of the last register copied; `I` is unchanged. -/
def execLoadRegisters (rx : RegIx) (s : State) : Host.Outcome State Fault Refusal :=
  match s.memRead s.base (rx.toNat + 1) with
  | .error f => raised s f
  | .ok bytes => .next (s.loadRegs bytes)

end Sys2Proof.Machine
end

