-- ==== Sys2Proof/Machine/Skip.lean ====
section
/-! DEFINITION. The four conditional skips (42_skip.md). -/

namespace Sys2Proof.Machine

/-- The common rule of the skips: `if cond: pc <- pc + 2`, on the advanced pc (R100). -/
def skipIf (cond : Bool) (s : State) : Host.Outcome State Fault Refusal :=
  .next (if cond then s.advance else s)

/-- SkipIfRegEqConst `3xkk` (R101). -/
def execSkipIfRegEqConst (rx : RegIx) (kk : Byte) (s : State) : Host.Outcome State Fault Refusal :=
  skipIf (s.reg rx == kk) s

/-- SkipIfRegNeqConst `4xkk` (R102). -/
def execSkipIfRegNeqConst (rx : RegIx) (kk : Byte) (s : State) : Host.Outcome State Fault Refusal :=
  skipIf (s.reg rx != kk) s

/-- SkipIfRegEqReg `5xy0` (R103). -/
def execSkipIfRegEqReg (rx ry : RegIx) (s : State) : Host.Outcome State Fault Refusal :=
  skipIf (s.reg rx == s.reg ry) s

/-- SkipIfRegNeqReg `9xy0` (R104). -/
def execSkipIfRegNeqReg (rx ry : RegIx) (s : State) : Host.Outcome State Fault Refusal :=
  skipIf (s.reg rx != s.reg ry) s

end Sys2Proof.Machine
end

