-- ==== Sys2Proof/Machine/Dispatch.lean ====
section
/-! DEFINITION. The execute phase: dispatch by the decoded variant alone (40_step.md rule R84). -/

namespace Sys2Proof.Machine

def exec (i : Instr) (s : State) : Host.Outcome State Fault Refusal :=
  match i with
  | .ret => Sys2Proof.Machine.execRet s
  | .clearDisplay => Sys2Proof.Machine.execClearDisplay s
  | .callMachineCode nnn => Sys2Proof.Machine.execCallMachineCode nnn s
  | .jump nnn => Sys2Proof.Machine.execJump nnn s
  | .callSubroutine nnn => Sys2Proof.Machine.execCallSubroutine nnn s
  | .skipIfRegEqConst rx kk => Sys2Proof.Machine.execSkipIfRegEqConst rx kk s
  | .skipIfRegNeqConst rx kk => Sys2Proof.Machine.execSkipIfRegNeqConst rx kk s
  | .skipIfRegEqReg rx ry => Sys2Proof.Machine.execSkipIfRegEqReg rx ry s
  | .setRegConst rx kk => Sys2Proof.Machine.execSetRegConst rx kk s
  | .addRegConst rx kk => Sys2Proof.Machine.execAddRegConst rx kk s
  | .copyReg rx ry => Sys2Proof.Machine.execCopyReg rx ry s
  | .orReg rx ry => Sys2Proof.Machine.execOrReg rx ry s
  | .andReg rx ry => Sys2Proof.Machine.execAndReg rx ry s
  | .xorReg rx ry => Sys2Proof.Machine.execXorReg rx ry s
  | .addReg rx ry => Sys2Proof.Machine.execAddReg rx ry s
  | .subReg rx ry => Sys2Proof.Machine.execSubReg rx ry s
  | .shiftRight rx ry => Sys2Proof.Machine.execShiftRight rx ry s
  | .reverseSubReg rx ry => Sys2Proof.Machine.execReverseSubReg rx ry s
  | .shiftLeft rx ry => Sys2Proof.Machine.execShiftLeft rx ry s
  | .skipIfRegNeqReg rx ry => Sys2Proof.Machine.execSkipIfRegNeqReg rx ry s
  | .setAddrRegConst nnn => Sys2Proof.Machine.execSetAddrRegConst nnn s
  | .jumpPlusOffset nnn => Sys2Proof.Machine.execJumpPlusOffset nnn s
  | .setRegRandomMasked rx kk => Sys2Proof.Machine.execSetRegRandomMasked rx kk s
  | .draw rx ry n => Sys2Proof.Machine.execDraw rx ry n s
  | .keyPressed rx => Sys2Proof.Machine.execKeyPressed rx s
  | .keyNotPressed rx => Sys2Proof.Machine.execKeyNotPressed rx s
  | .getDelayTimer rx => Sys2Proof.Machine.execGetDelayTimer rx s
  | .waitKey rx => Sys2Proof.Machine.execWaitKey rx s
  | .setDelayTimer rx => Sys2Proof.Machine.execSetDelayTimer rx s
  | .setSoundTimer rx => Sys2Proof.Machine.execSetSoundTimer rx s
  | .addAddressRegister rx => Sys2Proof.Machine.execAddAddressRegister rx s
  | .spriteAddressRegister rx => Sys2Proof.Machine.execSpriteAddressRegister rx s
  | .storeBCD rx => Sys2Proof.Machine.execStoreBCD rx s
  | .dumpRegisters rx => Sys2Proof.Machine.execDumpRegisters rx s
  | .loadRegisters rx => Sys2Proof.Machine.execLoadRegisters rx s

end Sys2Proof.Machine
end

