-- ==== Sys2Proof/Machine/Step.lean ====
section
/-! DEFINITION. `Step()`, the one transition of the engine (40_step.md rules R80 to R87). -/

namespace Sys2Proof.Machine

/-- `Step()` (R80): fetch (R81), advance (R82), decode (R83), execute (R84). A fault is the step's result, recorded in
the next state (R85, R187). -/
def step (s : State) : Host.Outcome State Fault Refusal :=
  match s.fetch with
  | .error f => raised s.beginStep f
  | .ok w =>
    match decode w with
    | .invalid w' => raised s.beginStep.advance (.invalidOpCode w')
    | .op i => exec i s.beginStep.advance

/-- `s` with the instruction whose bits are `w`, numbered as spec/opcode_table.json numbers them, stored where `step`
fetches its next instruction; the bits above `nbits` are 0. -/
def State.withFetchWord (s : State) (nbits w : Nat) : State :=
  s.placeWord (BitVec.ofNat 16 (w % 2 ^ nbits))

end Sys2Proof.Machine
end

