-- ==== Sys2Proof/Laws/Decode.lean ====
section
/-! SUPPORT. The fields of an assembled word, format by format (30_encoding.md rule R62), and a word put back together from
its fields. -/

namespace Sys2Proof

theorem wordA_getLsbD (f : Nibble) (nnn : Addr12) (i : Nat) :
    (wordA f nnn).getLsbD i = if i < 12 then nnn.getLsbD i else f.getLsbD (i - 12) :=
  BitVec.getLsbD_append

theorem wordXK_getLsbD (f : Nibble) (rx : RegIx) (kk : Byte) (i : Nat) :
    (wordXK f rx kk).getLsbD i =
      if i < 8 then kk.getLsbD i else if i < 12 then rx.getLsbD (i - 8) else f.getLsbD (i - 12) := by
  have h : (wordXK f rx kk).getLsbD i = if i < 8 then kk.getLsbD i else (f ++ rx).getLsbD (i - 8) :=
    BitVec.getLsbD_append
  rw [h, BitVec.getLsbD_append]
  split
  · rfl
  · simp only [show i - 8 < 4 ↔ i < 12 by omega, Nat.sub_sub]

theorem wordXY_getLsbD (f : Nibble) (rx ry : RegIx) (n : Nibble) (i : Nat) :
    (wordXY f rx ry n).getLsbD i =
      if i < 4 then n.getLsbD i else if i < 8 then ry.getLsbD (i - 4)
      else if i < 12 then rx.getLsbD (i - 8) else f.getLsbD (i - 12) := by
  have h : (wordXY f rx ry n).getLsbD i = if i < 4 then n.getLsbD i else (f ++ rx ++ ry).getLsbD (i - 4) :=
    BitVec.getLsbD_append
  have h' : (f ++ rx ++ ry).getLsbD (i - 4) =
      if i - 4 < 4 then ry.getLsbD (i - 4) else (f ++ rx).getLsbD (i - 4 - 4) := BitVec.getLsbD_append
  rw [h, h', BitVec.getLsbD_append]
  split
  · rfl
  · simp only [Nat.sub_sub, Nat.reduceAdd, show i - 4 < 4 ↔ i < 8 by omega, show i - 8 < 4 ↔ i < 12 by omega]

/-! Format A -/

@[simp] theorem fieldN0_wordA (f : Nibble) (nnn : Addr12) : fieldN0 (wordA f nnn) = f := by
  apply BitVec.eq_of_getLsbD_eq
  intro i hi
  simp [fieldN0, wordA_getLsbD, hi]

@[simp] theorem fieldNnn_wordA (f : Nibble) (nnn : Addr12) : fieldNnn (wordA f nnn) = nnn := by
  apply BitVec.eq_of_getLsbD_eq
  intro i hi
  simp [fieldNnn, wordA_getLsbD, hi]

/-! Formats XK and X -/

@[simp] theorem fieldN0_wordXK (f : Nibble) (rx : RegIx) (kk : Byte) : fieldN0 (wordXK f rx kk) = f := by
  apply BitVec.eq_of_getLsbD_eq
  intro i hi
  have : ¬ (12 + i < 8) := by omega
  simp [fieldN0, wordXK_getLsbD, hi, this]

@[simp] theorem fieldRx_wordXK (f : Nibble) (rx : RegIx) (kk : Byte) : fieldRx (wordXK f rx kk) = rx := by
  apply BitVec.eq_of_getLsbD_eq
  intro i hi
  simp [fieldRx, wordXK_getLsbD, hi, show 8 + i < 12 by omega]

@[simp] theorem fieldKk_wordXK (f : Nibble) (rx : RegIx) (kk : Byte) : fieldKk (wordXK f rx kk) = kk := by
  apply BitVec.eq_of_getLsbD_eq
  intro i hi
  simp [fieldKk, wordXK_getLsbD, hi]

/-! Formats XY and XYN -/

@[simp] theorem fieldN0_wordXY (f : Nibble) (rx ry : RegIx) (n : Nibble) : fieldN0 (wordXY f rx ry n) = f := by
  apply BitVec.eq_of_getLsbD_eq
  intro i hi
  simp [fieldN0, wordXY_getLsbD, hi, show ¬ (12 + i < 4) by omega, show ¬ (12 + i < 8) by omega]

@[simp] theorem fieldRx_wordXY (f : Nibble) (rx ry : RegIx) (n : Nibble) : fieldRx (wordXY f rx ry n) = rx := by
  apply BitVec.eq_of_getLsbD_eq
  intro i hi
  simp [fieldRx, wordXY_getLsbD, hi, show ¬ (8 + i < 4) by omega, show 8 + i < 12 by omega]

@[simp] theorem fieldRy_wordXY (f : Nibble) (rx ry : RegIx) (n : Nibble) : fieldRy (wordXY f rx ry n) = ry := by
  apply BitVec.eq_of_getLsbD_eq
  intro i hi
  simp [fieldRy, wordXY_getLsbD, hi, show 4 + i < 8 by omega]

@[simp] theorem fieldN_wordXY (f : Nibble) (rx ry : RegIx) (n : Nibble) : fieldN (wordXY f rx ry n) = n := by
  apply BitVec.eq_of_getLsbD_eq
  intro i hi
  simp [fieldN, wordXY_getLsbD, hi]

/-! A word put back together -/

theorem wordA_fields (w : Word) : wordA (fieldN0 w) (fieldNnn w) = w := by
  apply BitVec.eq_of_getLsbD_eq
  intro i hi
  rw [wordA_getLsbD]
  split
  · next h => simp [fieldNnn, h]
  · next h => simp [fieldN0, show i - 12 < 4 by omega, show 12 + (i - 12) = i by omega]

theorem wordXK_fields (w : Word) : wordXK (fieldN0 w) (fieldRx w) (fieldKk w) = w := by
  apply BitVec.eq_of_getLsbD_eq
  intro i hi
  rw [wordXK_getLsbD]
  split
  · next h => simp [fieldKk, h]
  · split
    · simp [fieldRx, show i - 8 < 4 by omega, show 8 + (i - 8) = i by omega]
    · simp [fieldN0, show i - 12 < 4 by omega, show 12 + (i - 12) = i by omega]

theorem wordXY_fields (w : Word) : wordXY (fieldN0 w) (fieldRx w) (fieldRy w) (fieldN w) = w := by
  apply BitVec.eq_of_getLsbD_eq
  intro i hi
  rw [wordXY_getLsbD]
  split
  · next h => simp [fieldN, h]
  · split
    · simp [fieldRy, show i - 4 < 4 by omega, show 4 + (i - 4) = i by omega]
    · split
      · simp [fieldRx, show i - 8 < 4 by omega, show 8 + (i - 8) = i by omega]
      · simp [fieldN0, show i - 12 < 4 by omega, show 12 + (i - 12) = i by omega]

/-- The two bytes of a word, put together again, are the word (R41). -/
theorem wordOfBytes_bytesOfWord (w : Word) : wordOfBytes (w.extractLsb' 8 8) (w.extractLsb' 0 8) = w := by
  apply BitVec.eq_of_getLsbD_eq
  intro i hi
  have h : (wordOfBytes (w.extractLsb' 8 8) (w.extractLsb' 0 8)).getLsbD i =
      if i < 8 then (w.extractLsb' 0 8).getLsbD i else (w.extractLsb' 8 8).getLsbD (i - 8) := BitVec.getLsbD_append
  rw [h]
  split
  · next h => simp [h]
  · simp [show i - 8 < 8 by omega, show 8 + (i - 8) = i by omega]

/-- The word as a number: the byte at the lower address is the more significant (R41). -/
theorem wordOfBytes_toNat (b0 b1 : Byte) : (wordOfBytes b0 b1).toNat = 256 * b0.toNat + b1.toNat := by
  have h : (wordOfBytes b0 b1).toNat = b0.toNat <<< 8 ||| b1.toNat := BitVec.toNat_append b0 b1
  rw [h, ← Nat.shiftLeft_add_eq_or_of_lt b1.isLt, Nat.shiftLeft_eq]
  omega

/-- The word an invalid outcome names is the word decoded (R182). -/
theorem decode_invalid_word {w w' : Word} (h : decode w = .invalid w') : w' = w := by
  unfold decode decodeFamily8 decodeFamilyE decodeFamilyF at h
  repeat' split at h
  all_goals first | exact (Decoded.invalid.inj h).symm | nomatch h

end Sys2Proof
end

