-- ==== Sys2Proof/Machine/HostOps.lean ====
section
/-! DEFINITION. The host's operations, each atomic and between two steps (70_reset_and_hazards.md rules R210 to R220). -/

namespace Sys2Proof.Machine

/-- `HostWrite(offset, bytes) -> bool` (R214). -/
def State.hostWrite (s : State) (offset : Nat) (bytes : List Byte) : State × Bool :=
  if offset + bytes.length > Config.memSize then (s, false)
  else ({ s with mem := s.mem.writeBytes offset bytes }, true)

/-- The state `Reset` makes before it loads the program image (R29, R210). -/
def State.cleared (c : ResetConfig) : State :=
  { State.reset with
      mem := Memory.filled c.fill
      pc := c.initialPc
      rand := ⟨c.seed, 0⟩
      stackDepth := c.stackDepth }

/-- Does `Reset` admit the image to the load? Yes, but for one byte at 4095, where it is the free value (R210, R212). -/
def imageAdmitted (initialPc : Word) (image : List Byte) : Bool :=
  if initialPc.toNat = 4095 ∧ image.length = 1 then Config.loadsAtLastAddress else true

/-- `Reset(FILL, INITIAL_PC, SEED, PROGRAM) -> loaded` (R210, R212). -/
def State.launch (c : ResetConfig) : State × Bool :=
  match c.program with
  | none => (State.cleared c, true)
  | some image =>
    if imageAdmitted c.initialPc image then (State.cleared c).hostWrite c.initialPc.toNat image
    else (State.cleared c, false)

/-- Program load: "write-at-pc", `HostWrite(pc, image)` with the current pc (R215). -/
def State.loadProgram (s : State) (image : List Byte) : State × Bool := s.hostWrite s.pc.toNat image

/-- A timer value one tick later: a non-zero value is lowered by one, zero stays (R196, R218). -/
def tickByte (v : Byte) : Byte := BitVec.ofNat 8 (v.toNat - 1)

/-- A host tick: `SetDelay(max(GetDelay() - 1, 0))` and the same for sound (R218). -/
def State.tick (s : State) : State := (s.setDT (tickByte s.DT)).setST (tickByte s.ST)

/-- The columns `x`, `x + 1`, ... of row `y`, `k` of them. -/
def Display.rowPixels (d : Display) (y x : Nat) : Nat → List Bool
  | 0 => []
  | k + 1 => d.pixel x y :: d.rowPixels y (x + 1) k

/-- The rows `y`, `y + 1`, ..., `k` of them, one after the other. -/
def Display.pixelsFrom (d : Display) (y : Nat) : Nat → List Bool
  | 0 => []
  | k + 1 => d.rowPixels y 0 Config.dispW ++ d.pixelsFrom (y + 1) k

/-- `ReadDisplay()`: the 2048 pixels, element `x + 64*y` is `FB[x, y]` (R219). -/
def State.readDisplay (s : State) : List Bool := s.FB.pixelsFrom 0 Config.dispH

/-- The host operations, exactly these (R217). -/
inductive HostOp where
  | reset (c : ResetConfig)
  | write (offset : Nat) (bytes : List Byte)
  | step
  | getDelay
  | setDelay (v : Byte)
  | getSound
  | setSound (v : Byte)
  | readDisplay
deriving DecidableEq, Repr

/-- What a host operation answers. -/
inductive HostReply where
  /-- `Reset`: was the program loaded. -/
  | loaded (b : Bool)
  /-- `HostWrite`: was it written. -/
  | written (b : Bool)
  /-- `Step`: `Ok` or a fault (R85). -/
  | result (r : Result)
  /-- `GetDelay`, `GetSound`. -/
  | timer (v : Byte)
  /-- `SetDelay`, `SetSound`. -/
  | done
  /-- `ReadDisplay`. -/
  | pixels (ps : List Bool)
  /-- Never answered: a step always answers a next state. -/
  | stopped
deriving DecidableEq, Repr

/-- One host operation: the state it leaves and its answer. -/
def hostDo (op : HostOp) (s : State) : State × HostReply :=
  match op with
  | .reset c => ((State.launch c).1, .loaded (State.launch c).2)
  | .write offset bytes => ((s.hostWrite offset bytes).1, .written (s.hostWrite offset bytes).2)
  | .step =>
    match Sys2Proof.Machine.step s with
    | .next t => (t, .result t.result)
    | .fault _ => (s, .stopped)
    | .refused _ => (s, .stopped)
  | .getDelay => (s, .timer s.DT)
  | .setDelay v => (s.setDT v, .done)
  | .getSound => (s, .timer s.ST)
  | .setSound v => (s.setST v, .done)
  | .readDisplay => (s, .pixels s.readDisplay)

/-- A session: host operations one after the other (R7, R217). -/
def hostRun : List HostOp → State → State
  | [], s => s
  | op :: ops, s => hostRun ops (hostDo op s).1

end Sys2Proof.Machine
end

