-- ==== Sys2Proof/Safety.lean ====
section
/-! DEFINITION. The terms claims are stated in: the invariant of the machine, faulted and finished runs, the instruction a
step runs, and what is left unchanged (40_step.md rule R87). -/

namespace Sys2Proof.Machine

/-- What every step keeps: memory in canonical form with no address past 4095 (R23); pc at most 4350, the largest
JumpPlusOffset target (R17); stack entries as a call makes them, 2..4096 (R93); never more of them than a finite
`STACK_DEPTH` (R20); and a raised fault is in the run's record (R193). -/
structure State.Inv (s : State) : Prop where
  mem : s.mem.wf = true
  pc : s.pc.toNat ≤ 4350
  entries : ∀ v ∈ s.stack, 2 ≤ v.toNat ∧ v.toNat ≤ 4096
  depth : ∀ d, s.stackDepth = some d → s.stack.length ≤ d
  record : ∀ f, s.result = .raised f → s.firstFault ≠ none

/-- No step of the run has returned a fault: the premise of a claim about a program (R193). -/
abbrev State.unfaulted (s : State) : Prop := s.firstFault = none

/-- The instruction the next step executes, where it gets as far as executing one (R81, R83). -/
def State.nextOp (s : State) : Option Instr :=
  match s.fetch with
  | .error _ => none
  | .ok w =>
    match decode w with
    | .invalid _ => none
    | .op i => some i

/-- The bytes of the instruction `i` lie where the next step fetches (R41, R81). -/
def State.holdsAtPc (s : State) (i : Instr) : Prop :=
  s.pc.toNat ≤ 4094 ∧ s.mem.read s.pc.toNat ++ s.mem.read (s.pc.toNat + 1) = encode i

/-- Parked: pc points at a Jump to its own address (R221 b). -/
def State.parked (s : State) : Bool := decide (s.nextOp = some (.jump (s.pc.setWidth 12)))

/-- A final state of a run: parked, and no step has faulted (R193, R221). -/
abbrev State.finished (s : State) : Prop := s.parked = true ∧ s.unfaulted

/-! Frames -/

/-- Every register but those listed holds what it held. -/
def KeepsRegsBut (ds : List RegIx) (s t : State) : Prop := ∀ r, r ∉ ds → t.reg r = s.reg r

/-- Every byte of memory reads as before. -/
def KeepsMemory (s t : State) : Prop := ∀ a, t.mem.read a = s.mem.read a

/-- Every byte outside the `n` bytes at `lo` reads as before. -/
def KeepsMemoryOutside (lo n : Nat) (s t : State) : Prop :=
  ∀ a, ¬ (lo ≤ a ∧ a < lo + n) → t.mem.read a = s.mem.read a

/-- Every pixel is as before. -/
def KeepsDisplay (s t : State) : Prop := ∀ x y, t.FB.pixel x y = s.FB.pixel x y

/-- `DT` and `ST` are as before. -/
def KeepsTimers (s t : State) : Prop := t.DT = s.DT ∧ t.ST = s.ST

/-- No request was made of the Random Source, and the parameter `STACK_DEPTH` is as before. -/
def KeepsOutside (s t : State) : Prop := t.rand = s.rand ∧ t.stackDepth = s.stackDepth

/-- The model's records of faults are as before. -/
def KeepsRecord (s t : State) : Prop := t.result = s.result ∧ t.firstFault = s.firstFault

/-- The step's result is the fault `f`, and the run's first fault is kept. -/
def Raises (f : Fault) (s t : State) : Prop := t.result = .raised f ∧ t.firstFault = s.firstFault.or (some f)

/-- Everything but registers, pc and the records is as before. -/
def KeepsCore (s t : State) : Prop :=
  t.I = s.I ∧ t.stack = s.stack ∧ KeepsTimers s t ∧ KeepsDisplay s t ∧ KeepsMemory s t ∧ KeepsOutside s t

/-- Only the listed registers may differ. -/
def OnlyRegs (ds : List RegIx) (s t : State) : Prop :=
  KeepsRegsBut ds s t ∧ t.pc = s.pc ∧ KeepsCore s t ∧ KeepsRecord s t

/-- Only pc may differ. -/
def OnlyPc (s t : State) : Prop := KeepsRegsBut [] s t ∧ KeepsCore s t ∧ KeepsRecord s t

/-- The fault `f` is raised and nothing else differs (R188). -/
def OnlyRaises (f : Fault) (s t : State) : Prop :=
  Raises f s t ∧ KeepsRegsBut [] s t ∧ t.pc = s.pc ∧ KeepsCore s t

/-- The registers an instruction may write (the column "writes" of R11). -/
def regWrites (i : Instr) (r : RegIx) : Prop :=
  match i with
  | .setRegConst rx _ | .addRegConst rx _ | .setRegRandomMasked rx _ | .copyReg rx _ | .orReg rx _ | .andReg rx _
  | .xorReg rx _ | .getDelayTimer rx => r = rx
  | .addReg rx _ | .subReg rx _ | .reverseSubReg rx _ | .shiftRight rx _ | .shiftLeft rx _ => r = rx ∨ r = vf
  | .draw _ _ _ => r = vf
  | .loadRegisters rx => r.toNat ≤ rx.toNat
  | .ret | .clearDisplay | .callMachineCode _ | .jump _ | .callSubroutine _ | .skipIfRegEqConst _ _
  | .skipIfRegNeqConst _ _ | .skipIfRegEqReg _ _ | .skipIfRegNeqReg _ _ | .setAddrRegConst _ | .jumpPlusOffset _
  | .keyPressed _ | .keyNotPressed _ | .waitKey _ | .setDelayTimer _ | .setSoundTimer _ | .addAddressRegister _
  | .spriteAddressRegister _ | .storeBCD _ | .dumpRegisters _ => False

/-- The five operations that decode and are rejected (R184). -/
def isUnsupported (i : Instr) : Prop :=
  (∃ nnn, i = .callMachineCode nnn) ∨ (∃ rx, i = .keyPressed rx) ∨ (∃ rx, i = .keyNotPressed rx) ∨
    (∃ rx, i = .waitKey rx) ∨ (∃ rx, i = .spriteAddressRegister rx)

/-- The value an instruction at pc itself gives pc, where it gives one (the table of R17, from the row of the skips on);
`s` is the state before the step. -/
def State.pcTarget (s : State) (i : Instr) : Option Nat :=
  match i with
  | .jump nnn => some nnn.toNat
  | .jumpPlusOffset nnn => some (nnn.toNat + (s.reg 0x0#4).toNat)
  | .callSubroutine nnn => if s.stackFull then none else some nnn.toNat
  | .ret => s.stack.head?.map BitVec.toNat
  | .skipIfRegEqConst rx kk => if s.reg rx = kk then some (s.pc.toNat + 4) else none
  | .skipIfRegNeqConst rx kk => if s.reg rx ≠ kk then some (s.pc.toNat + 4) else none
  | .skipIfRegEqReg rx ry => if s.reg rx = s.reg ry then some (s.pc.toNat + 4) else none
  | .skipIfRegNeqReg rx ry => if s.reg rx ≠ s.reg ry then some (s.pc.toNat + 4) else none
  | .clearDisplay | .callMachineCode _ | .setRegConst _ _ | .addRegConst _ _ | .copyReg _ _ | .orReg _ _ | .andReg _ _
  | .xorReg _ _ | .addReg _ _ | .subReg _ _ | .shiftRight _ _ | .reverseSubReg _ _ | .shiftLeft _ _
  | .setAddrRegConst _ | .setRegRandomMasked _ _ | .draw _ _ _ | .keyPressed _ | .keyNotPressed _ | .getDelayTimer _
  | .waitKey _ | .setDelayTimer _ | .setSoundTimer _ | .addAddressRegister _ | .spriteAddressRegister _ | .storeBCD _
  | .dumpRegisters _ | .loadRegisters _ => none

/-- The sprite bit a draw of the `h` rows at `base` with its corner at `(x, y)` brings to pixel `(px, py)`: bit `7 - c`
of row `r` for the pixel at column offset `c` and row offset `r`, 0 outside the sprite (R143, R144). -/
def spriteAt (m : Memory) (base x y h px py : Nat) : Bool :=
  decide (x ≤ px) && decide (px < x + 8) && decide (y ≤ py) && decide (py < y + h) &&
    (m.read (base + (py - y))).getLsbD (7 - (px - x))

end Sys2Proof.Machine
end

