-- ==== Sys2Proof/Laws/State.lean ====
section
/-! SUPPORT. One lemma per field per update of State, so that no proof unfolds a record update. -/

namespace Sys2Proof.Machine

@[simp] theorem setReg_V (s : State) (r : RegIx) (v : Byte) : (s.setReg r v).V = s.V.set r.toNat v := rfl
@[simp] theorem setReg_I (s : State) (r : RegIx) (v : Byte) : (s.setReg r v).I = s.I := rfl
@[simp] theorem setReg_pc (s : State) (r : RegIx) (v : Byte) : (s.setReg r v).pc = s.pc := rfl
@[simp] theorem setReg_stack (s : State) (r : RegIx) (v : Byte) : (s.setReg r v).stack = s.stack := rfl
@[simp] theorem setReg_DT (s : State) (r : RegIx) (v : Byte) : (s.setReg r v).DT = s.DT := rfl
@[simp] theorem setReg_ST (s : State) (r : RegIx) (v : Byte) : (s.setReg r v).ST = s.ST := rfl
@[simp] theorem setReg_mem (s : State) (r : RegIx) (v : Byte) : (s.setReg r v).mem = s.mem := rfl
@[simp] theorem setReg_FB (s : State) (r : RegIx) (v : Byte) : (s.setReg r v).FB = s.FB := rfl
@[simp] theorem setReg_rand (s : State) (r : RegIx) (v : Byte) : (s.setReg r v).rand = s.rand := rfl
@[simp] theorem setReg_stackDepth (s : State) (r : RegIx) (v : Byte) : (s.setReg r v).stackDepth = s.stackDepth := rfl
@[simp] theorem setReg_result (s : State) (r : RegIx) (v : Byte) : (s.setReg r v).result = s.result := rfl
@[simp] theorem setReg_firstFault (s : State) (r : RegIx) (v : Byte) : (s.setReg r v).firstFault = s.firstFault := rfl

@[simp] theorem setAddr_V (s : State) (v : Word) : (s.setAddr v).V = s.V := rfl
@[simp] theorem setAddr_I (s : State) (v : Word) : (s.setAddr v).I = v := rfl
@[simp] theorem setAddr_pc (s : State) (v : Word) : (s.setAddr v).pc = s.pc := rfl
@[simp] theorem setAddr_stack (s : State) (v : Word) : (s.setAddr v).stack = s.stack := rfl
@[simp] theorem setAddr_DT (s : State) (v : Word) : (s.setAddr v).DT = s.DT := rfl
@[simp] theorem setAddr_ST (s : State) (v : Word) : (s.setAddr v).ST = s.ST := rfl
@[simp] theorem setAddr_mem (s : State) (v : Word) : (s.setAddr v).mem = s.mem := rfl
@[simp] theorem setAddr_FB (s : State) (v : Word) : (s.setAddr v).FB = s.FB := rfl
@[simp] theorem setAddr_rand (s : State) (v : Word) : (s.setAddr v).rand = s.rand := rfl
@[simp] theorem setAddr_stackDepth (s : State) (v : Word) : (s.setAddr v).stackDepth = s.stackDepth := rfl
@[simp] theorem setAddr_result (s : State) (v : Word) : (s.setAddr v).result = s.result := rfl
@[simp] theorem setAddr_firstFault (s : State) (v : Word) : (s.setAddr v).firstFault = s.firstFault := rfl
@[simp] theorem setAddr_reg (s : State) (v : Word) (r : RegIx) : (s.setAddr v).reg r = s.reg r := rfl

@[simp] theorem setPc_V (s : State) (v : Word) : (s.setPc v).V = s.V := rfl
@[simp] theorem setPc_I (s : State) (v : Word) : (s.setPc v).I = s.I := rfl
@[simp] theorem setPc_pc (s : State) (v : Word) : (s.setPc v).pc = v := rfl
@[simp] theorem setPc_stack (s : State) (v : Word) : (s.setPc v).stack = s.stack := rfl
@[simp] theorem setPc_DT (s : State) (v : Word) : (s.setPc v).DT = s.DT := rfl
@[simp] theorem setPc_ST (s : State) (v : Word) : (s.setPc v).ST = s.ST := rfl
@[simp] theorem setPc_mem (s : State) (v : Word) : (s.setPc v).mem = s.mem := rfl
@[simp] theorem setPc_FB (s : State) (v : Word) : (s.setPc v).FB = s.FB := rfl
@[simp] theorem setPc_rand (s : State) (v : Word) : (s.setPc v).rand = s.rand := rfl
@[simp] theorem setPc_stackDepth (s : State) (v : Word) : (s.setPc v).stackDepth = s.stackDepth := rfl
@[simp] theorem setPc_result (s : State) (v : Word) : (s.setPc v).result = s.result := rfl
@[simp] theorem setPc_firstFault (s : State) (v : Word) : (s.setPc v).firstFault = s.firstFault := rfl
@[simp] theorem setPc_reg (s : State) (v : Word) (r : RegIx) : (s.setPc v).reg r = s.reg r := rfl

@[simp] theorem setDT_V (s : State) (v : Byte) : (s.setDT v).V = s.V := rfl
@[simp] theorem setDT_I (s : State) (v : Byte) : (s.setDT v).I = s.I := rfl
@[simp] theorem setDT_pc (s : State) (v : Byte) : (s.setDT v).pc = s.pc := rfl
@[simp] theorem setDT_stack (s : State) (v : Byte) : (s.setDT v).stack = s.stack := rfl
@[simp] theorem setDT_DT (s : State) (v : Byte) : (s.setDT v).DT = v := rfl
@[simp] theorem setDT_ST (s : State) (v : Byte) : (s.setDT v).ST = s.ST := rfl
@[simp] theorem setDT_mem (s : State) (v : Byte) : (s.setDT v).mem = s.mem := rfl
@[simp] theorem setDT_FB (s : State) (v : Byte) : (s.setDT v).FB = s.FB := rfl
@[simp] theorem setDT_rand (s : State) (v : Byte) : (s.setDT v).rand = s.rand := rfl
@[simp] theorem setDT_stackDepth (s : State) (v : Byte) : (s.setDT v).stackDepth = s.stackDepth := rfl
@[simp] theorem setDT_result (s : State) (v : Byte) : (s.setDT v).result = s.result := rfl
@[simp] theorem setDT_firstFault (s : State) (v : Byte) : (s.setDT v).firstFault = s.firstFault := rfl
@[simp] theorem setDT_reg (s : State) (v : Byte) (r : RegIx) : (s.setDT v).reg r = s.reg r := rfl

@[simp] theorem setST_V (s : State) (v : Byte) : (s.setST v).V = s.V := rfl
@[simp] theorem setST_I (s : State) (v : Byte) : (s.setST v).I = s.I := rfl
@[simp] theorem setST_pc (s : State) (v : Byte) : (s.setST v).pc = s.pc := rfl
@[simp] theorem setST_stack (s : State) (v : Byte) : (s.setST v).stack = s.stack := rfl
@[simp] theorem setST_DT (s : State) (v : Byte) : (s.setST v).DT = s.DT := rfl
@[simp] theorem setST_ST (s : State) (v : Byte) : (s.setST v).ST = v := rfl
@[simp] theorem setST_mem (s : State) (v : Byte) : (s.setST v).mem = s.mem := rfl
@[simp] theorem setST_FB (s : State) (v : Byte) : (s.setST v).FB = s.FB := rfl
@[simp] theorem setST_rand (s : State) (v : Byte) : (s.setST v).rand = s.rand := rfl
@[simp] theorem setST_stackDepth (s : State) (v : Byte) : (s.setST v).stackDepth = s.stackDepth := rfl
@[simp] theorem setST_result (s : State) (v : Byte) : (s.setST v).result = s.result := rfl
@[simp] theorem setST_firstFault (s : State) (v : Byte) : (s.setST v).firstFault = s.firstFault := rfl
@[simp] theorem setST_reg (s : State) (v : Byte) (r : RegIx) : (s.setST v).reg r = s.reg r := rfl

@[simp] theorem push_V (s : State) (v : Word) : (s.push v).V = s.V := rfl
@[simp] theorem push_I (s : State) (v : Word) : (s.push v).I = s.I := rfl
@[simp] theorem push_pc (s : State) (v : Word) : (s.push v).pc = s.pc := rfl
@[simp] theorem push_stack (s : State) (v : Word) : (s.push v).stack = v :: s.stack := rfl
@[simp] theorem push_DT (s : State) (v : Word) : (s.push v).DT = s.DT := rfl
@[simp] theorem push_ST (s : State) (v : Word) : (s.push v).ST = s.ST := rfl
@[simp] theorem push_mem (s : State) (v : Word) : (s.push v).mem = s.mem := rfl
@[simp] theorem push_FB (s : State) (v : Word) : (s.push v).FB = s.FB := rfl
@[simp] theorem push_rand (s : State) (v : Word) : (s.push v).rand = s.rand := rfl
@[simp] theorem push_stackDepth (s : State) (v : Word) : (s.push v).stackDepth = s.stackDepth := rfl
@[simp] theorem push_result (s : State) (v : Word) : (s.push v).result = s.result := rfl
@[simp] theorem push_firstFault (s : State) (v : Word) : (s.push v).firstFault = s.firstFault := rfl
@[simp] theorem push_reg (s : State) (v : Word) (r : RegIx) : (s.push v).reg r = s.reg r := rfl

@[simp] theorem raise_V (s : State) (f : Fault) : (s.raise f).V = s.V := rfl
@[simp] theorem raise_I (s : State) (f : Fault) : (s.raise f).I = s.I := rfl
@[simp] theorem raise_pc (s : State) (f : Fault) : (s.raise f).pc = s.pc := rfl
@[simp] theorem raise_stack (s : State) (f : Fault) : (s.raise f).stack = s.stack := rfl
@[simp] theorem raise_DT (s : State) (f : Fault) : (s.raise f).DT = s.DT := rfl
@[simp] theorem raise_ST (s : State) (f : Fault) : (s.raise f).ST = s.ST := rfl
@[simp] theorem raise_mem (s : State) (f : Fault) : (s.raise f).mem = s.mem := rfl
@[simp] theorem raise_FB (s : State) (f : Fault) : (s.raise f).FB = s.FB := rfl
@[simp] theorem raise_rand (s : State) (f : Fault) : (s.raise f).rand = s.rand := rfl
@[simp] theorem raise_stackDepth (s : State) (f : Fault) : (s.raise f).stackDepth = s.stackDepth := rfl
@[simp] theorem raise_result (s : State) (f : Fault) : (s.raise f).result = .raised f := rfl
@[simp] theorem raise_firstFault (s : State) (f : Fault) : (s.raise f).firstFault = s.firstFault.or (some f) := rfl
@[simp] theorem raise_reg (s : State) (f : Fault) (r : RegIx) : (s.raise f).reg r = s.reg r := rfl

@[simp] theorem beginStep_V (s : State) : (s.beginStep).V = s.V := rfl
@[simp] theorem beginStep_I (s : State) : (s.beginStep).I = s.I := rfl
@[simp] theorem beginStep_pc (s : State) : (s.beginStep).pc = s.pc := rfl
@[simp] theorem beginStep_stack (s : State) : (s.beginStep).stack = s.stack := rfl
@[simp] theorem beginStep_DT (s : State) : (s.beginStep).DT = s.DT := rfl
@[simp] theorem beginStep_ST (s : State) : (s.beginStep).ST = s.ST := rfl
@[simp] theorem beginStep_mem (s : State) : (s.beginStep).mem = s.mem := rfl
@[simp] theorem beginStep_FB (s : State) : (s.beginStep).FB = s.FB := rfl
@[simp] theorem beginStep_rand (s : State) : (s.beginStep).rand = s.rand := rfl
@[simp] theorem beginStep_stackDepth (s : State) : (s.beginStep).stackDepth = s.stackDepth := rfl
@[simp] theorem beginStep_result (s : State) : (s.beginStep).result = .ok := rfl
@[simp] theorem beginStep_firstFault (s : State) : (s.beginStep).firstFault = s.firstFault := rfl
@[simp] theorem beginStep_reg (s : State) (r : RegIx) : (s.beginStep).reg r = s.reg r := rfl

@[simp] theorem advance_V (s : State) : (s.advance).V = s.V := rfl
@[simp] theorem advance_I (s : State) : (s.advance).I = s.I := rfl
@[simp] theorem advance_pc (s : State) : (s.advance).pc = s.pc + 2#16 := rfl
@[simp] theorem advance_stack (s : State) : (s.advance).stack = s.stack := rfl
@[simp] theorem advance_DT (s : State) : (s.advance).DT = s.DT := rfl
@[simp] theorem advance_ST (s : State) : (s.advance).ST = s.ST := rfl
@[simp] theorem advance_mem (s : State) : (s.advance).mem = s.mem := rfl
@[simp] theorem advance_FB (s : State) : (s.advance).FB = s.FB := rfl
@[simp] theorem advance_rand (s : State) : (s.advance).rand = s.rand := rfl
@[simp] theorem advance_stackDepth (s : State) : (s.advance).stackDepth = s.stackDepth := rfl
@[simp] theorem advance_result (s : State) : (s.advance).result = s.result := rfl
@[simp] theorem advance_firstFault (s : State) : (s.advance).firstFault = s.firstFault := rfl
@[simp] theorem advance_reg (s : State) (r : RegIx) : (s.advance).reg r = s.reg r := rfl

@[simp] theorem loadRegs_V (s : State) (bs : List Byte) : (s.loadRegs bs).V = loadFrom 0 bs s.V := rfl
@[simp] theorem loadRegs_I (s : State) (bs : List Byte) : (s.loadRegs bs).I = s.I := rfl
@[simp] theorem loadRegs_pc (s : State) (bs : List Byte) : (s.loadRegs bs).pc = s.pc := rfl
@[simp] theorem loadRegs_stack (s : State) (bs : List Byte) : (s.loadRegs bs).stack = s.stack := rfl
@[simp] theorem loadRegs_DT (s : State) (bs : List Byte) : (s.loadRegs bs).DT = s.DT := rfl
@[simp] theorem loadRegs_ST (s : State) (bs : List Byte) : (s.loadRegs bs).ST = s.ST := rfl
@[simp] theorem loadRegs_mem (s : State) (bs : List Byte) : (s.loadRegs bs).mem = s.mem := rfl
@[simp] theorem loadRegs_FB (s : State) (bs : List Byte) : (s.loadRegs bs).FB = s.FB := rfl
@[simp] theorem loadRegs_rand (s : State) (bs : List Byte) : (s.loadRegs bs).rand = s.rand := rfl
@[simp] theorem loadRegs_stackDepth (s : State) (bs : List Byte) : (s.loadRegs bs).stackDepth = s.stackDepth := rfl
@[simp] theorem loadRegs_result (s : State) (bs : List Byte) : (s.loadRegs bs).result = s.result := rfl
@[simp] theorem loadRegs_firstFault (s : State) (bs : List Byte) : (s.loadRegs bs).firstFault = s.firstFault := rfl

@[simp] theorem setReg_reg_same (s : State) (r : RegIx) (v : Byte) : (s.setReg r v).reg r = v := by
  simp [State.reg]

/-- A register write leaves every other register alone. -/
theorem setReg_reg_ne (s : State) {r r' : RegIx} (v : Byte) (h : r' ≠ r) : (s.setReg r v).reg r' = s.reg r' := by
  have hn : r.toNat ≠ r'.toNat := fun e => h (BitVec.eq_of_toNat_eq e.symm)
  simp [State.reg, hn]

/-- Reading any register after a register write. -/
theorem setReg_reg (s : State) (r r' : RegIx) (v : Byte) :
    (s.setReg r v).reg r' = if r' = r then v else s.reg r' := by
  by_cases h : r' = r
  · subst h; simp
  · simp [h, setReg_reg_ne s v h]

/-- A state that agrees on every register has the same register file. -/
theorem regs_ext {s t : State} (h : ∀ r, t.reg r = s.reg r) : t.V = s.V := by
  apply Vector.ext
  intro i hi
  have := h (BitVec.ofNat 4 i)
  simpa [State.reg, Nat.mod_eq_of_lt hi] using this

/-- What a flag-writing ALU instruction leaves in each register: the result, the flag, or the old value (R130). -/
theorem writeFlagged_reg (s : State) (rx r : RegIx) (flag : Bool) (v : Byte) :
    (s.writeFlagged rx flag v).reg r = if r = rx then v else if r = vf then flagByte flag else s.reg r := by
  simp [State.writeFlagged, setReg_reg]

@[simp] theorem writeFlagged_I (s : State) (rx : RegIx) (b : Bool) (v : Byte) : (s.writeFlagged rx b v).I = s.I := rfl
@[simp] theorem writeFlagged_pc (s : State) (rx : RegIx) (b : Bool) (v : Byte) : (s.writeFlagged rx b v).pc = s.pc := rfl
@[simp] theorem writeFlagged_stack (s : State) (rx : RegIx) (b : Bool) (v : Byte) : (s.writeFlagged rx b v).stack = s.stack := rfl
@[simp] theorem writeFlagged_DT (s : State) (rx : RegIx) (b : Bool) (v : Byte) : (s.writeFlagged rx b v).DT = s.DT := rfl
@[simp] theorem writeFlagged_ST (s : State) (rx : RegIx) (b : Bool) (v : Byte) : (s.writeFlagged rx b v).ST = s.ST := rfl
@[simp] theorem writeFlagged_mem (s : State) (rx : RegIx) (b : Bool) (v : Byte) : (s.writeFlagged rx b v).mem = s.mem := rfl
@[simp] theorem writeFlagged_FB (s : State) (rx : RegIx) (b : Bool) (v : Byte) : (s.writeFlagged rx b v).FB = s.FB := rfl
@[simp] theorem writeFlagged_rand (s : State) (rx : RegIx) (b : Bool) (v : Byte) : (s.writeFlagged rx b v).rand = s.rand := rfl
@[simp] theorem writeFlagged_stackDepth (s : State) (rx : RegIx) (b : Bool) (v : Byte) : (s.writeFlagged rx b v).stackDepth = s.stackDepth := rfl
@[simp] theorem writeFlagged_result (s : State) (rx : RegIx) (b : Bool) (v : Byte) : (s.writeFlagged rx b v).result = s.result := rfl
@[simp] theorem writeFlagged_firstFault (s : State) (rx : RegIx) (b : Bool) (v : Byte) : (s.writeFlagged rx b v).firstFault = s.firstFault := rfl

@[simp] theorem randByte_V (s : State) : s.randByte.2.V = s.V := rfl
@[simp] theorem randByte_I (s : State) : s.randByte.2.I = s.I := rfl
@[simp] theorem randByte_pc (s : State) : s.randByte.2.pc = s.pc := rfl
@[simp] theorem randByte_stack (s : State) : s.randByte.2.stack = s.stack := rfl
@[simp] theorem randByte_DT (s : State) : s.randByte.2.DT = s.DT := rfl
@[simp] theorem randByte_ST (s : State) : s.randByte.2.ST = s.ST := rfl
@[simp] theorem randByte_mem (s : State) : s.randByte.2.mem = s.mem := rfl
@[simp] theorem randByte_FB (s : State) : s.randByte.2.FB = s.FB := rfl
@[simp] theorem randByte_stackDepth (s : State) : s.randByte.2.stackDepth = s.stackDepth := rfl
@[simp] theorem randByte_result (s : State) : s.randByte.2.result = s.result := rfl
@[simp] theorem randByte_firstFault (s : State) : s.randByte.2.firstFault = s.firstFault := rfl
@[simp] theorem randByte_rand (s : State) : s.randByte.2.rand = ⟨s.rand.seed, s.rand.requests + 1⟩ := rfl
@[simp] theorem randByte_reg (s : State) (r : RegIx) : s.randByte.2.reg r = s.reg r := rfl
@[simp] theorem randByte_byte (s : State) : s.randByte.1 = Config.randByte s.rand.seed s.rand.requests := rfl

@[simp] theorem composite_I (s : State) (x y : Nat) (rows : List Byte) : (s.composite x y rows).I = s.I := rfl
@[simp] theorem composite_pc (s : State) (x y : Nat) (rows : List Byte) : (s.composite x y rows).pc = s.pc := rfl
@[simp] theorem composite_stack (s : State) (x y : Nat) (rows : List Byte) : (s.composite x y rows).stack = s.stack := rfl
@[simp] theorem composite_DT (s : State) (x y : Nat) (rows : List Byte) : (s.composite x y rows).DT = s.DT := rfl
@[simp] theorem composite_ST (s : State) (x y : Nat) (rows : List Byte) : (s.composite x y rows).ST = s.ST := rfl
@[simp] theorem composite_mem (s : State) (x y : Nat) (rows : List Byte) : (s.composite x y rows).mem = s.mem := rfl
@[simp] theorem composite_rand (s : State) (x y : Nat) (rows : List Byte) : (s.composite x y rows).rand = s.rand := rfl
@[simp] theorem composite_stackDepth (s : State) (x y : Nat) (rows : List Byte) : (s.composite x y rows).stackDepth = s.stackDepth := rfl
@[simp] theorem composite_result (s : State) (x y : Nat) (rows : List Byte) : (s.composite x y rows).result = s.result := rfl
@[simp] theorem composite_firstFault (s : State) (x y : Nat) (rows : List Byte) : (s.composite x y rows).firstFault = s.firstFault := rfl
@[simp] theorem composite_FB (s : State) (x y : Nat) (rows : List Byte) :
    (s.composite x y rows).FB = (drawRows x y rows (s.FB, false)).1 := rfl

/-- A draw writes no register but VF, which receives the collision flag (R141). -/
theorem composite_reg (s : State) (x y : Nat) (rows : List Byte) (r : RegIx) :
    (s.composite x y rows).reg r = if r = vf then flagByte (drawRows x y rows (s.FB, false)).2 else s.reg r :=
  setReg_reg _ _ _ _

end Sys2Proof.Machine
end

