-- ==== Sys2Proof/Laws/Memory.lean ====
section
/-! SUPPORT. Memory: a read after a write, and the canonical form, which every memory operation keeps. -/

namespace Sys2Proof.Machine

@[simp] theorem read_nil (a : Nat) : Memory.read [] a = Memory.unlisted := rfl

/-- Erasing an address makes it read as unlisted and leaves the others alone. -/
theorem read_erase (m : Memory) (a a' : Nat) :
    (m.erase a).read a' = if a' = a then Memory.unlisted else m.read a' := by
  induction m with
  | nil => simp [Memory.erase]
  | cons c m ih =>
    obtain ⟨k, b⟩ := c
    unfold Memory.erase at ih ⊢
    by_cases hk : k = a
    · subst hk
      simp only [List.filter_cons, bne_self_eq_false, Bool.false_eq_true, if_false, ih, Memory.read]
      split <;> simp_all
    · have : (k != a) = true := by simpa using hk
      simp only [List.filter_cons, this, if_true, Memory.read, ih]
      split <;> simp_all

/-- Inserting an entry makes its address read as the byte, where no other entry of that address stands. -/
theorem read_insert (m : Memory) (a : Nat) (b : Byte) (a' : Nat) (h : ∀ c ∈ m, c.1 ≠ a) :
    (Memory.insert m a b).read a' = if a' = a then b else m.read a' := by
  induction m with
  | nil => simp [Memory.insert, Memory.read]
  | cons c m ih =>
    obtain ⟨k, b'⟩ := c
    have hk : k ≠ a := h (k, b') (by simp)
    have ih' := ih (fun c hc => h c (by simp [hc]))
    unfold Memory.insert
    split
    · simp [Memory.read]
    · simp only [Memory.read, ih']
      split <;> simp_all

theorem erase_keys (m : Memory) (a : Nat) : ∀ c ∈ m.erase a, c.1 ≠ a := by
  intro c hc
  simpa using (List.mem_filter.1 hc).2

/-- Read after write: the byte written at its address, every other address as before. Whatever the list's form. -/
theorem read_write (m : Memory) (a : Nat) (b : Byte) (a' : Nat) :
    (m.write a b).read a' = if a' = a then b else m.read a' := by
  unfold Memory.write
  split
  · next h => rw [read_erase, h]
  · rw [read_insert _ _ _ _ (erase_keys m a), read_erase]
    split <;> simp

/-- Reading after a block of bytes is written. -/
theorem read_writeBytes (bs : List Byte) : ∀ (m : Memory) (a a' : Nat),
    (m.writeBytes a bs).read a' = if h : a ≤ a' ∧ a' - a < bs.length then bs[a' - a]'h.2 else m.read a' := by
  induction bs with
  | nil => intro m a a'; simp [Memory.writeBytes]
  | cons b bs ih =>
    intro m a a'
    rw [Memory.writeBytes, ih]
    by_cases h1 : a' = a
    · subst h1
      have : ¬ (a' + 1 ≤ a' ∧ a' - (a' + 1) < bs.length) := by omega
      simp [read_write]
    · by_cases h2 : a + 1 ≤ a' ∧ a' - (a + 1) < bs.length
      · have h3 : a ≤ a' ∧ a' - a < (b :: bs).length := by simp; omega
        have e : a' - a = (a' - (a + 1)) + 1 := by omega
        simp only [dif_pos h2, dif_pos h3]
        simp only [e, List.getElem_cons_succ]
      · have h3 : ¬ (a ≤ a' ∧ a' - a < (b :: bs).length) := by simp; omega
        simp only [dif_neg h2, dif_neg h3, read_write, if_neg h1]

@[simp] theorem readBytes_length (m : Memory) (n : Nat) : ∀ a, (m.readBytes a n).length = n := by
  induction n with
  | zero => intro a; rfl
  | succ n ih => intro a; simp [Memory.readBytes, ih]

/-- The `k`-th byte of a read block is the byte at `a + k`. -/
@[simp] theorem readBytes_getElem (m : Memory) (n : Nat) : ∀ (a k : Nat) (h : k < (m.readBytes a n).length),
    (m.readBytes a n)[k] = m.read (a + k) := by
  induction n with
  | zero => intro a k h; simp [Memory.readBytes] at h
  | succ n ih =>
    intro a k h
    cases k with
    | zero => simp [Memory.readBytes]
    | succ k =>
      simp only [Memory.readBytes, List.getElem_cons_succ]
      rw [ih]
      congr 1
      omega

/-! The canonical form -/

theorem wfFrom_mono {m : Memory} {lo lo' : Nat} (h : lo' ≤ lo) (hm : m.wfFrom lo = true) : m.wfFrom lo' = true := by
  cases m with
  | nil => rfl
  | cons c m =>
    obtain ⟨k, b⟩ := c
    simp only [Memory.wfFrom, Bool.and_eq_true, decide_eq_true_eq] at hm ⊢
    exact ⟨⟨⟨by omega, hm.1.1.2⟩, hm.1.2⟩, hm.2⟩

theorem wfFrom_erase {m : Memory} (a : Nat) : ∀ {lo : Nat}, m.wfFrom lo = true → (m.erase a).wfFrom lo = true := by
  induction m with
  | nil => intro lo _; rfl
  | cons c m ih =>
    obtain ⟨k, b⟩ := c
    intro lo hm
    simp only [Memory.wfFrom, Bool.and_eq_true, decide_eq_true_eq] at hm
    have htail : (Memory.erase m a).wfFrom (k + 1) = true := ih hm.2
    by_cases hk : k = a
    · have : Memory.erase ((k, b) :: m) a = Memory.erase m a := by simp [Memory.erase, hk]
      rw [this]
      exact wfFrom_mono (by omega) htail
    · have : Memory.erase ((k, b) :: m) a = (k, b) :: Memory.erase m a := by simp [Memory.erase, hk]
      rw [this]
      simp [Memory.wfFrom, hm.1.1.1, hm.1.1.2, hm.1.2, htail]

theorem wfFrom_insert {m : Memory} {a : Nat} {b : Byte} (ha : a < Config.memSize) (hb : b ≠ Memory.unlisted) :
    ∀ {lo : Nat}, lo ≤ a → (∀ c ∈ m, c.1 ≠ a) → m.wfFrom lo = true → (Memory.insert m a b).wfFrom lo = true := by
  induction m with
  | nil => intro lo hlo _ _; simp [Memory.insert, Memory.wfFrom, hlo, ha, hb]
  | cons c m ih =>
    obtain ⟨k, b'⟩ := c
    intro lo hlo hk hm
    have hne : k ≠ a := hk (k, b') (by simp)
    simp only [Memory.wfFrom, Bool.and_eq_true, decide_eq_true_eq] at hm
    unfold Memory.insert
    split
    · next hlt => simp [Memory.wfFrom, hlo, ha, hb, hm.1.1.2, hm.1.2, hm.2, Nat.succ_le_of_lt hlt]
    · have h := ih (lo := k + 1) (by omega) (fun c hc => hk c (by simp [hc])) hm.2
      simp [Memory.wfFrom, hm.1.1.1, hm.1.1.2, hm.1.2, h]

/-- A write below 4096 keeps the canonical form. -/
theorem wf_write {m : Memory} {a : Nat} {b : Byte} (ha : a < Config.memSize) (hm : m.wf = true) :
    (m.write a b).wf = true := by
  unfold Memory.write
  split
  · exact wfFrom_erase a hm
  · next hb => exact wfFrom_insert ha hb (Nat.zero_le _) (erase_keys m a) (wfFrom_erase a hm)

/-- A block written inside memory keeps the canonical form. -/
theorem wf_writeBytes (bs : List Byte) : ∀ {m : Memory} {a : Nat}, a + bs.length ≤ Config.memSize → m.wf = true →
    (m.writeBytes a bs).wf = true := by
  induction bs with
  | nil => intro m a _ hm; exact hm
  | cons b bs ih =>
    intro m a ha hm
    simp only [List.length_cons] at ha
    exact ih (by omega) (wf_write (by omega) hm)

theorem wfFrom_constant {f : Byte} (hf : f ≠ Memory.unlisted) (n : Nat) : ∀ lo, lo + n ≤ Config.memSize →
    Memory.wfFrom lo ((List.range' lo n).map (fun a => (a, f))) = true := by
  induction n with
  | zero => intro lo _; rfl
  | succ n ih =>
    intro lo h
    simp [List.range'_succ, Memory.wfFrom, hf, ih (lo + 1) (by omega), show lo < Config.memSize by omega]

/-- The memory `Reset` makes is in canonical form, whatever `FILL` is. -/
theorem wf_filled (f : Byte) : (Memory.filled f).wf = true := by
  unfold Memory.filled
  split
  · rfl
  · next hf => rw [List.range_eq_range']; exact wfFrom_constant hf _ 0 (by simp)

theorem read_constant (f : Byte) (n : Nat) : ∀ lo a,
    Memory.read ((List.range' lo n).map (fun a => (a, f))) a =
      if lo ≤ a ∧ a < lo + n then f else Memory.unlisted := by
  induction n with
  | zero => intro lo a; simp
  | succ n ih =>
    intro lo a
    simp only [List.range'_succ, List.map_cons, Memory.read, ih]
    by_cases h : a = lo
    · simp [h]
    · simp only [if_neg h]
      congr 1
      simp only [eq_iff_iff]
      omega

/-- Every byte of the memory `Reset` makes holds `FILL`. -/
theorem read_filled (f : Byte) {a : Nat} (ha : a < Config.memSize) : (Memory.filled f).read a = f := by
  unfold Memory.filled
  split
  · next h => simp [h]
  · rw [List.range_eq_range', read_constant]; simp [ha]

theorem reset_mem_wf : State.reset.mem.wf = true := rfl

/-- Below the first address of a canonical list every byte is unlisted. -/
theorem wfFrom_read_lt {m : Memory} : ∀ {lo a : Nat}, m.wfFrom lo = true → a < lo → m.read a = Memory.unlisted := by
  induction m with
  | nil => intros; rfl
  | cons c m ih =>
    obtain ⟨k, b⟩ := c
    intro lo a hm ha
    simp only [Memory.wfFrom, Bool.and_eq_true, decide_eq_true_eq] at hm
    simp only [Memory.read, if_neg (show a ≠ k by omega)]
    exact ih hm.2 (by omega)

/-- The first entry of a canonical list holds its byte, which is not the unlisted one. -/
theorem wfFrom_cons {k : Nat} {b : Byte} {m : Memory} {lo : Nat} (h : Memory.wfFrom lo ((k, b) :: m) = true) :
    b ≠ Memory.unlisted ∧ m.wfFrom (k + 1) = true ∧ Memory.wfFrom k ((k, b) :: m) = true := by
  simp only [Memory.wfFrom, Bool.and_eq_true, decide_eq_true_eq, bne_iff_ne] at h ⊢
  exact ⟨h.1.2, h.2, ⟨⟨Nat.le_refl k, h.1.1.2⟩, h.1.2⟩, h.2⟩

theorem wfFrom_ext (m : Memory) : ∀ (m' : Memory) (lo lo' : Nat), m.wfFrom lo = true → m'.wfFrom lo' = true →
    (∀ a, m.read a = m'.read a) → m = m' := by
  induction m with
  | nil =>
    intro m' lo lo' _ hm' h
    cases m' with
    | nil => rfl
    | cons c m' =>
      obtain ⟨k, b⟩ := c
      have := h k
      simp only [Memory.read, if_true] at this
      exact absurd this.symm (wfFrom_cons hm').1
  | cons c m ih =>
    obtain ⟨k, b⟩ := c
    intro m' lo lo' hm hm' h
    obtain ⟨hb, ht, hs⟩ := wfFrom_cons hm
    cases m' with
    | nil =>
      have := h k
      simp only [Memory.read, if_true] at this
      exact absurd this hb
    | cons c' m' =>
      obtain ⟨k', b'⟩ := c'
      obtain ⟨hb', ht', hs'⟩ := wfFrom_cons hm'
      have e : k = k' := by
        rcases Nat.lt_trichotomy k k' with hlt | he | hgt
        · have := h k
          rw [wfFrom_read_lt hs' hlt] at this
          exact absurd (by simpa [Memory.read] using this) hb
        · exact he
        · have := h k'
          rw [wfFrom_read_lt hs hgt] at this
          exact absurd (by simpa [Memory.read] using this.symm) hb'
      subst e
      have eb : b = b' := by simpa [Memory.read] using h k
      subst eb
      congr 1
      refine ih m' _ _ ht ht' (fun a => ?_)
      by_cases ha : a = k
      · subst ha
        rw [wfFrom_read_lt ht (Nat.lt_succ_self _), wfFrom_read_lt ht' (Nat.lt_succ_self _)]
      · simpa [Memory.read, ha] using h a

/-- Equal memories are equal data: two in canonical form that read alike are the same list. -/
theorem wf_ext {m m' : Memory} (hm : m.wf = true) (hm' : m'.wf = true) (h : ∀ a, m.read a = m'.read a) : m = m' :=
  wfFrom_ext m m' 0 0 hm hm' h

end Sys2Proof.Machine
end

