-- ==== Sys2Proof/Laws/Operands.lean ====
section
/-! SUPPORT. The operand forms and results as numbers, and the register blocks of dump and load. -/

namespace Sys2Proof.Machine

@[simp] theorem addrOfConst_toNat (nnn : Addr12) : (addrOfConst nnn).toNat = nnn.toNat := by
  have := nnn.isLt
  simp [addrOfConst]
  omega

/-- The sum of JumpPlusOffset fits 16 bits (R94). -/
@[simp] theorem addrPlus_toNat (nnn : Addr12) (v : Byte) : (addrPlus nnn v).toNat = nnn.toNat + v.toNat := by
  have := nnn.isLt
  have := v.isLt
  simp [addrPlus]
  omega

@[simp] theorem addrAdd_toNat (i : Word) (v : Byte) : (addrAdd i v).toNat = (i.toNat + v.toNat) % 65536 := by
  simp [addrAdd]

@[simp] theorem byteAdd_toNat (a b : Byte) : (byteAdd a b).toNat = (a.toNat + b.toNat) % 256 := by
  simp [byteAdd]

/-- The wrapped difference: `a - b` where there is no borrow, 256 more where there is (R131). -/
@[simp] theorem byteSub_toNat (a b : Byte) :
    (byteSub a b).toNat = if b.toNat ≤ a.toNat then a.toNat - b.toNat else a.toNat + 256 - b.toNat := by
  have := a.isLt
  have := b.isLt
  simp only [byteSub, BitVec.toNat_ofInt]
  split <;> omega

@[simp] theorem byteShr_toNat (a : Byte) : (byteShr a).toNat = a.toNat / 2 := by
  have := a.isLt
  simp [byteShr]
  omega

@[simp] theorem byteShl_toNat (a : Byte) : (byteShl a).toNat = a.toNat * 2 % 256 := by
  simp [byteShl]

/-- The byte-wide results agree with the bit-vector operations. -/
theorem byteAdd_eq (a b : Byte) : byteAdd a b = a + b := by
  apply BitVec.eq_of_toNat_eq
  simp [byteAdd]

@[simp] theorem bcdDigits_length (v : Byte) : (bcdDigits v).length = 3 := rfl

@[simp] theorem regsUpTo_length (s : State) (n : RegIx) : (s.regsUpTo n).length = n.toNat + 1 := by
  have := n.isLt
  simp [State.regsUpTo]
  omega

/-- The `k`-th byte of a register block is `V[k]` (R166). -/
theorem regsUpTo_getElem (s : State) (n : RegIx) (k : Nat) (h : k < (s.regsUpTo n).length) :
    (s.regsUpTo n)[k] = s.reg (BitVec.ofNat 4 k) := by
  have hk : k < 16 := by
    have := n.isLt
    rw [regsUpTo_length] at h
    omega
  simp [State.regsUpTo, State.reg, Nat.mod_eq_of_lt hk]

/-- What a loaded register file holds: the bytes from index `k` on, the old values elsewhere (R167). -/
theorem loadFrom_getElem (bs : List Byte) : ∀ (k : Nat) (v : Vector Byte 16) (i : Nat) (hi : i < 16),
    (loadFrom k bs v)[i] = if h : k ≤ i ∧ i - k < bs.length then bs[i - k]'h.2 else v[i] := by
  induction bs with
  | nil => intro k v i hi; simp [loadFrom]
  | cons b bs ih =>
    intro k v i hi
    rw [loadFrom, ih]
    by_cases h1 : i = k
    · subst h1
      have : ¬ (i + 1 ≤ i ∧ i - (i + 1) < bs.length) := by omega
      simp
    · by_cases h2 : k + 1 ≤ i ∧ i - (k + 1) < bs.length
      · have h3 : k ≤ i ∧ i - k < (b :: bs).length := by simp; omega
        have e : i - k = (i - (k + 1)) + 1 := by omega
        simp only [dif_pos h2, dif_pos h3]
        simp only [e, List.getElem_cons_succ]
      · have h3 : ¬ (k ≤ i ∧ i - k < (b :: bs).length) := by simp; omega
        simp only [dif_neg h2, dif_neg h3]
        rw [Vector.getElem_setIfInBounds]
        simp [Ne.symm h1]

/-- What LoadRegisters leaves in each register (R167). -/
theorem loadRegs_reg (s : State) (bs : List Byte) (r : RegIx) :
    (s.loadRegs bs).reg r = if h : r.toNat < bs.length then bs[r.toNat]'h else s.reg r := by
  have h16 : r.toNat < 16 := r.isLt
  have := loadFrom_getElem bs 0 s.V r.toNat h16
  simpa [State.reg, State.loadRegs] using this

/-- The flag byte is 0 or 1 (R13). -/
theorem flagByte_zero_or_one (b : Bool) : flagByte b = 0x00#8 ∨ flagByte b = 0x01#8 := by
  cases b <;> simp [flagByte]

end Sys2Proof.Machine
end

