-- ==== Sys2Proof/Laws/Surface.lean ====
section
/-! SUPPORT. The Display Surface: pixels after a write, after `clear`, and after a draw, and when a draw collides. -/

namespace Sys2Proof.Machine

theorem pixel_col_out (d : Display) {x y : Nat} (hx : 64 ≤ x) : d.pixel x y = false := by
  unfold Display.pixel
  split
  · exact BitVec.getLsbD_of_ge _ _ hx
  · rfl

theorem pixel_row_out (d : Display) {x y : Nat} (hy : 32 ≤ y) : d.pixel x y = false := by
  simp [Display.pixel, Nat.not_lt.2 hy]

theorem rowWith_getLsbD (row : BitVec 64) {x : Nat} (b : Bool) (i : Nat) (hx : x < 64) :
    (rowWith row x b).getLsbD i = if i = x then b else row.getLsbD i := by
  unfold rowWith
  by_cases hi : i = x
  · subst hi
    cases b <;> simp [hx]
  · have h0 : ¬ (i - x = 0 ∧ x ≤ i) := by omega
    cases b <;> simp [hi]
    · intro h
      have := BitVec.lt_of_getLsbD h
      omega
    · omega

/-- Pixel after a pixel write: the written one, every other as before. -/
theorem pixel_setPixel (d : Display) {x y : Nat} (b : Bool) (x' y' : Nat) (hx : x < 64) (hy : y < 32) :
    (d.setPixel x y b).pixel x' y' = if x' = x ∧ y' = y then b else d.pixel x' y' := by
  unfold Display.setPixel Display.pixel
  rw [dif_pos hy]
  by_cases hy' : y' < 32
  · simp only [dif_pos hy']
    by_cases h : y = y'
    · subst h
      simp [rowWith_getLsbD _ _ _ hx]
    · simp [h, Ne.symm h]
  · simp only [dif_neg hy']
    split
    · omega
    · rfl

@[simp] theorem pixel_clear (x y : Nat) : Display.clear.pixel x y = false := by
  unfold Display.pixel Display.clear
  split <;> simp

/-- Two framebuffers with the same pixels are the same data. -/
theorem display_ext {d d' : Display} (h : ∀ x y, d.pixel x y = d'.pixel x y) : d = d' := by
  apply Vector.ext
  intro y hy
  apply BitVec.eq_of_getLsbD_eq
  intro x hx
  simpa [Display.pixel, hy] using h x y

/-- The sprite row `row` at `(x, y)` from column `c` on, `k` columns: its bit at pixel `(px, py)`. -/
def rowBitAt (row : Byte) (x y c k px py : Nat) : Bool :=
  decide (py = y) && decide (x + c ≤ px) && decide (px < x + c + k) && spriteBit row (px - x)

/-- One row of a draw XORs its bits in and collides exactly where a set bit meets a set pixel (R143). -/
theorem drawRowFrom_spec (row : Byte) (x y : Nat) (hy : y < 32) (k : Nat) :
    ∀ (c : Nat) (acc : Display × Bool), x + c + k ≤ 64 →
      (∀ px py, (drawRowFrom x y row c k acc).1.pixel px py = (acc.1.pixel px py ^^ rowBitAt row x y c k px py)) ∧
      ((drawRowFrom x y row c k acc).2 = true ↔
        acc.2 = true ∨ ∃ px py, rowBitAt row x y c k px py = true ∧ acc.1.pixel px py = true) := by
  induction k with
  | zero =>
    intro c acc _
    have h0 : ∀ px py, rowBitAt row x y c 0 px py = false := by
      intro px py
      simp [rowBitAt]
    simp [drawRowFrom, h0]
  | succ k ih =>
    intro c acc hk
    obtain ⟨hp, hc⟩ := ih (c + 1) (plot (x + c) y (spriteBit row c) acc) (by omega)
    have hbit : ∀ px py, rowBitAt row x y c (k + 1) px py =
        (if px = x + c ∧ py = y then spriteBit row c else rowBitAt row x y (c + 1) k px py) := by
      intro px py
      by_cases he : px = x + c ∧ py = y
      · obtain ⟨rfl, rfl⟩ := he
        simp [rowBitAt]
      · rw [if_neg he]
        unfold rowBitAt
        congr 1
        rw [Bool.eq_iff_iff]
        simp only [Bool.and_eq_true, decide_eq_true_eq]
        constructor
        · intro h; omega
        · intro h; omega
    have hnone : ∀ px py, px = x + c ∧ py = y → rowBitAt row x y (c + 1) k px py = false := by
      rintro px py ⟨rfl, rfl⟩
      simp [rowBitAt]
    have hpix : ∀ px py, (plot (x + c) y (spriteBit row c) acc).1.pixel px py =
        if px = x + c ∧ py = y then (acc.1.pixel (x + c) y ^^ spriteBit row c) else acc.1.pixel px py :=
      fun px py => pixel_setPixel _ _ _ _ (by omega) hy
    refine ⟨fun px py => ?_, ?_⟩
    · rw [drawRowFrom, hp, hpix, hbit]
      by_cases he : px = x + c ∧ py = y
      · rw [if_pos he, if_pos he, hnone px py he, he.1, he.2]; simp
      · rw [if_neg he, if_neg he]
    · rw [drawRowFrom, hc]
      constructor
      · rintro (h | ⟨px, py, hb, hpx⟩)
        · simp only [plot, Bool.or_eq_true, Bool.and_eq_true] at h
          rcases h with h | ⟨h1, h2⟩
          · exact .inl h
          · exact .inr ⟨x + c, y, by rw [hbit, if_pos ⟨rfl, rfl⟩]; exact h2, h1⟩
        · by_cases he : px = x + c ∧ py = y
          · rw [hnone px py he] at hb; cases hb
          · rw [hpix, if_neg he] at hpx
            exact .inr ⟨px, py, by rw [hbit, if_neg he]; exact hb, hpx⟩
      · rintro (h | ⟨px, py, hb, hpx⟩)
        · exact .inl (by simp [plot, h])
        · rw [hbit] at hb
          by_cases he : px = x + c ∧ py = y
          · rw [if_pos he] at hb
            rw [he.1, he.2] at hpx
            exact .inl (by simp [plot, hb, hpx])
          · rw [if_neg he] at hb
            exact .inr ⟨px, py, hb, by rw [hpix, if_neg he]; exact hpx⟩

/-- The bit of the sprite `rows` at `(x, y)` for pixel `(px, py)`, 0 outside it (R144). -/
def spriteBitAt (rows : List Byte) (x y px py : Nat) : Bool :=
  decide (x ≤ px) && decide (px < x + 8) && decide (y ≤ py) && decide (py < y + rows.length) &&
    spriteBit (rows.getD (py - y) 0x00#8) (px - x)

/-- A draw inside the grid XORs the sprite in, pixel by pixel, and collides exactly where a set sprite bit meets a set
pixel (R143): all that `drawRows` does. -/
theorem drawRows_spec (x : Nat) (hx : x + 8 ≤ 64) (rows : List Byte) :
    ∀ (y : Nat) (acc : Display × Bool), y + rows.length ≤ 32 →
      (∀ px py, (drawRows x y rows acc).1.pixel px py = (acc.1.pixel px py ^^ spriteBitAt rows x y px py)) ∧
      ((drawRows x y rows acc).2 = true ↔
        acc.2 = true ∨ ∃ px py, spriteBitAt rows x y px py = true ∧ acc.1.pixel px py = true) := by
  induction rows with
  | nil =>
    intro y acc _
    have h0 : ∀ px py, spriteBitAt [] x y px py = false := by
      intro px py
      simp [spriteBitAt]
    simp [drawRows, h0]
  | cons row rows ih =>
    intro y acc hy
    simp only [List.length_cons] at hy
    obtain ⟨hp, hc⟩ := ih (y + 1) (drawRowFrom x y row 0 Config.spriteW acc) (by omega)
    obtain ⟨hrp, hrc⟩ := drawRowFrom_spec row x y (by omega) Config.spriteW 0 acc (by simpa [Config.spriteW] using hx)
    have hbit : ∀ px py, spriteBitAt (row :: rows) x y px py =
        (if py = y then rowBitAt row x y 0 Config.spriteW px py else spriteBitAt rows x (y + 1) px py) := by
      intro px py
      by_cases he : py = y
      · subst he
        rw [if_pos rfl]
        simp [spriteBitAt, rowBitAt, Config.spriteW]
      · rw [if_neg he]
        unfold spriteBitAt
        by_cases hlt : py < y
        · have h1 : ¬ y ≤ py := by omega
          have h2 : ¬ y + 1 ≤ py := by omega
          simp [h1, h2]
        · have e : py - y = (py - (y + 1)) + 1 := by omega
          rw [e, List.getD_cons_succ]
          congr 1
          rw [Bool.eq_iff_iff]
          simp only [Bool.and_eq_true, decide_eq_true_eq, List.length_cons]
          omega
    have hrow : ∀ px py, py ≠ y → rowBitAt row x y 0 Config.spriteW px py = false := by
      intro px py h; simp [rowBitAt, h]
    have hrest : ∀ px, spriteBitAt rows x (y + 1) px y = false := by
      intro px; simp [spriteBitAt]
    refine ⟨fun px py => ?_, ?_⟩
    · rw [drawRows, hp, hrp, hbit]
      by_cases he : py = y
      · subst he; simp [hrest]
      · simp [he, hrow px py he]
    · rw [drawRows, hc, hrc]
      constructor
      · rintro ((h | ⟨px, py, hb, hpx⟩) | ⟨px, py, hb, hpx⟩)
        · exact .inl h
        · by_cases he : py = y
          · exact .inr ⟨px, py, by rw [hbit, if_pos he]; exact hb, hpx⟩
          · rw [hrow px py he] at hb; cases hb
        · by_cases he : py = y
          · subst he; rw [hrest] at hb; cases hb
          · rw [hrp, hrow px py he, Bool.xor_false] at hpx
            exact .inr ⟨px, py, by rw [hbit, if_neg he]; exact hb, hpx⟩
      · rintro (h | ⟨px, py, hb, hpx⟩)
        · exact .inl (.inl h)
        · rw [hbit] at hb
          by_cases he : py = y
          · rw [if_pos he] at hb
            exact .inl (.inr ⟨px, py, hb, hpx⟩)
          · rw [if_neg he] at hb
            exact .inr ⟨px, py, hb, by rw [hrp, hrow px py he, Bool.xor_false]; exact hpx⟩

/-- The bits of a sprite whose rows are read from memory at `base` (R141, R144). -/
theorem spriteBitAt_readBytes (m : Memory) (base x y h px py : Nat) :
    spriteBitAt (m.readBytes base h) x y px py = spriteAt m base x y h px py := by
  unfold spriteBitAt spriteAt
  rw [readBytes_length]
  by_cases hb : py < y + h
  · by_cases ha : y ≤ py
    · have hl : py - y < (m.readBytes base h).length := by rw [readBytes_length]; omega
      rw [List.getD_eq_getElem _ _ hl, readBytes_getElem]
      rfl
    · simp [ha]
  · simp [hb]

/-- The bounds test of a draw (R145). -/
theorem drawOutOfBounds_eq_false (x y h : Nat) :
    drawOutOfBounds x y h = false ↔ (h ≠ 0 → x + 8 ≤ 64 ∧ y + h ≤ 32) := by
  simp only [drawOutOfBounds, Bool.and_eq_false_iff, Bool.or_eq_false_iff, decide_eq_false_iff_not]
  omega

/-- All that compositing the `h` rows at `base` does to the pixels inside the grid, and when it collides (R141, R143). -/
theorem composite_spec (s : State) (x y base h : Nat) (hb : h ≠ 0 → x + 8 ≤ 64 ∧ y + h ≤ 32) :
    (∀ px py, (s.composite x y (s.mem.readBytes base h)).FB.pixel px py =
      (s.FB.pixel px py ^^ spriteAt s.mem base x y h px py)) ∧
    ((drawRows x y (s.mem.readBytes base h) (s.FB, false)).2 = true ↔
      ∃ px py, spriteAt s.mem base x y h px py = true ∧ s.FB.pixel px py = true) := by
  by_cases h0 : h = 0
  · subst h0
    have hz : ∀ px py, spriteAt s.mem base x y 0 px py = false := by
      intro px py
      simp only [spriteAt, Nat.add_zero, Bool.and_eq_false_iff, decide_eq_false_iff_not]
      omega
    simp [Memory.readBytes, drawRows, hz]
  · obtain ⟨hx, hy⟩ := hb h0
    have := drawRows_spec x hx (s.mem.readBytes base h) y (s.FB, false) (by simpa using hy)
    simpa [spriteBitAt_readBytes] using this

end Sys2Proof.Machine
end

