-- ==== Sys2Proof/Laws/Ops.lean ====
section
/-! SUPPORT. For each shared operation, everything it can do, once. -/

namespace Sys2Proof.Machine

/-! The bounds contract -/

theorem inRange_iff (a n : Nat) : inRange a n = true ↔ n = 0 ∨ a + n ≤ 4096 := by
  unfold inRange
  simp only [Bool.or_eq_true, beq_iff_eq, decide_eq_true_eq]
  exact Iff.rfl

/-- A read in range answers the bytes (R45). -/
theorem memRead_ok (s : State) {a n : Nat} (h : n = 0 ∨ a + n ≤ 4096) : s.memRead a n = .ok (s.mem.readBytes a n) := by
  simp [State.memRead, (inRange_iff a n).2 h]

/-- A read out of range raises and reads nothing (R44, R45). -/
theorem memRead_error (s : State) {a n : Nat} (h : ¬ (n = 0 ∨ a + n ≤ 4096)) :
    s.memRead a n = .error (.memoryOutOfBounds a n) := by
  have : inRange a n = false := by
    rw [Bool.eq_false_iff]
    exact fun e => h ((inRange_iff a n).1 e)
  simp [State.memRead, this]

/-- A write in range writes its bytes and nothing else (R46). -/
theorem memWrite_ok (s : State) {a : Nat} {bs : List Byte} (h : bs.length = 0 ∨ a + bs.length ≤ 4096) :
    s.memWrite a bs = .ok { s with mem := s.mem.writeBytes a bs } := by
  simp [State.memWrite, (inRange_iff a _).2 h]

/-- A write out of range raises and writes nothing (R44, R46). -/
theorem memWrite_error (s : State) {a : Nat} {bs : List Byte} (h : ¬ (bs.length = 0 ∨ a + bs.length ≤ 4096)) :
    s.memWrite a bs = .error (.memoryOutOfBounds a bs.length) := by
  have : inRange a bs.length = false := by
    rw [Bool.eq_false_iff]
    exact fun e => h ((inRange_iff a _).1 e)
  simp [State.memWrite, this]

/-- A block read back right after it was written is the block (R52). -/
theorem readBytes_writeBytes (bs : List Byte) (m : Memory) (a : Nat) :
    (m.writeBytes a bs).readBytes a bs.length = bs := by
  apply List.ext_getElem
  · simp
  · intro k h1 h2
    rw [readBytes_getElem, read_writeBytes]
    have : a ≤ a + k ∧ a + k - a < bs.length := ⟨by omega, by omega⟩
    rw [dif_pos this]
    simp only [Nat.add_sub_cancel_left]

/-! The end of an instruction that stores -/

/-- A store at `I` either fits, and only memory changes, or raises (R46, R188). -/
theorem storeAtBase_cases (bs : List Byte) (s : State) :
    ((bs.length = 0 ∨ s.base + bs.length ≤ 4096) ∧
        storeAtBase bs s = .next { s with mem := s.mem.writeBytes s.base bs }) ∨
      (¬ (bs.length = 0 ∨ s.base + bs.length ≤ 4096) ∧
        storeAtBase bs s = .next (s.raise (.memoryOutOfBounds s.base bs.length))) := by
  by_cases h : bs.length = 0 ∨ s.base + bs.length ≤ 4096
  · exact .inl ⟨h, by simp [storeAtBase, memWrite_ok s h]⟩
  · exact .inr ⟨h, by simp [storeAtBase, memWrite_error s h, raised]⟩

/-! The stack -/

theorem pop_nil {s : State} (h : s.stack = []) : s.pop = none := by simp [State.pop, h]

theorem pop_cons {s : State} {v : Word} {rest : List Word} (h : s.stack = v :: rest) :
    s.pop = some (v, { s with stack := rest }) := by simp [State.pop, h]

theorem stackFull_iff (s : State) : s.stackFull = true ↔ ∃ d, s.stackDepth = some d ∧ d ≤ s.stack.length := by
  unfold State.stackFull
  split <;> simp_all

/-! The fetch -/

/-- The fetch inside memory: the two bytes at pc, first byte more significant (R41, R81). -/
theorem fetch_ok {s : State} (h : s.pc.toNat ≤ 4094) :
    s.fetch = .ok (wordOfBytes (s.mem.read s.pc.toNat) (s.mem.read (s.pc.toNat + 1))) := by
  have e : s.memRead s.pc.toNat 2 = .ok (s.mem.readBytes s.pc.toNat 2) := memRead_ok s (.inr (by omega))
  simp [State.fetch, e, Memory.readBytes]

/-- The fetch past memory raises (R81). -/
theorem fetch_error {s : State} (h : 4095 ≤ s.pc.toNat) : s.fetch = .error (.memoryOutOfBounds s.pc.toNat 2) := by
  have e : s.memRead s.pc.toNat 2 = .error (.memoryOutOfBounds s.pc.toNat 2) := memRead_error s (by omega)
  simp [State.fetch, e]

/-- The fetch depends on pc and memory alone. -/
theorem fetch_congr {s t : State} (hpc : t.pc = s.pc) (hm : t.mem = s.mem) : t.fetch = s.fetch := by
  unfold State.fetch State.memRead
  rw [hpc, hm]

/-- A step whose fetch fails (R81). -/
theorem step_of_fetch_error {s : State} {f : Fault} (h : s.fetch = .error f) : step s = .next (s.beginStep.raise f) := by
  unfold step
  rw [h]
  rfl

/-- A step whose word is invalid (R83). -/
theorem step_of_invalid {s : State} {w w' : Word} (h : s.fetch = .ok w) (hd : decode w = .invalid w') :
    step s = .next (s.beginStep.advance.raise (.invalidOpCode w')) := by
  unfold step
  rw [h]
  simp only [hd]
  rfl

/-- A step that executes (R84). -/
theorem step_of_op {s : State} {w : Word} {i : Instr} (h : s.fetch = .ok w) (hd : decode w = .op i) :
    step s = exec i s.beginStep.advance := by
  unfold step
  rw [h]
  simp only [hd]

theorem nextOp_of_op {s : State} {w : Word} {i : Instr} (h : s.fetch = .ok w) (hd : decode w = .op i) :
    s.nextOp = some i := by
  unfold State.nextOp
  rw [h]
  simp only [hd]

theorem nextOp_of_invalid {s : State} {w w' : Word} (h : s.fetch = .ok w) (hd : decode w = .invalid w') :
    s.nextOp = none := by
  unfold State.nextOp
  rw [h]
  simp only [hd]

/-- Everything a step can do: fail in the fetch, fail in decoding after the advance, or execute (R80). -/
theorem step_cases (s : State) :
    (4095 ≤ s.pc.toNat ∧ step s = .next (s.beginStep.raise (.memoryOutOfBounds s.pc.toNat 2))) ∨
      (s.pc.toNat ≤ 4094 ∧ s.nextOp = none ∧
        ∃ w, s.fetch = .ok w ∧ decode w = .invalid w ∧ step s = .next (s.beginStep.advance.raise (.invalidOpCode w))) ∨
      (s.pc.toNat ≤ 4094 ∧ ∃ w i, s.fetch = .ok w ∧ decode w = .op i ∧ s.nextOp = some i ∧
        step s = exec i s.beginStep.advance) := by
  by_cases h : s.pc.toNat ≤ 4094
  · obtain ⟨w, hf⟩ : ∃ w, s.fetch = .ok w := ⟨_, fetch_ok h⟩
    cases hd : decode w with
    | invalid w' =>
      obtain rfl := decode_invalid_word hd
      exact .inr (.inl ⟨h, nextOp_of_invalid hf hd, _, hf, hd, step_of_invalid hf hd⟩)
    | op i => exact .inr (.inr ⟨h, w, i, hf, hd, nextOp_of_op hf hd, step_of_op hf hd⟩)
  · have h' : 4095 ≤ s.pc.toNat := by omega
    exact .inl ⟨h', step_of_fetch_error (fetch_error h')⟩

end Sys2Proof.Machine
end

