-- ==== Sys2Proof/Certificates/Slice0/Obligations.lean ====
section
/-! DEFINITION. The statements for the provers. `exec i s` is the execute phase of `i` on a state whose pc is already advanced
(40_step.md rule R82). A fault is a next state that records it (log entry 1): that form is the model's choice wherever
a statement speaks of `Raises`, `OnlyRaises` or `result`. -/

open Sys2Proof Sys2Proof.Machine

/-! Encoding -/

/-- Words of 95_test_vectors.md section 2.1 decode as its table says (that 5AB1 is invalid is decision D21, that EA9E is
KeyPressed G2; both log entry 8). -/
def Obligations.DecodesWordsOfTheSpec : Prop :=
  decode 0x00EE#16 = .op .ret ∧ decode 0x00E0#16 = .op .clearDisplay ∧ decode 0x0000#16 = .op (.callMachineCode 0x000#12) ∧
  decode 0x1ABC#16 = .op (.jump 0xABC#12) ∧ decode 0x5AB0#16 = .op (.skipIfRegEqReg 0xA#4 0xB#4) ∧
  decode 0x5AB1#16 = .invalid 0x5AB1#16 ∧ decode 0x73FF#16 = .op (.addRegConst 0x3#4 0xFF#8) ∧
  decode 0x8AB7#16 = .op (.reverseSubReg 0xA#4 0xB#4) ∧ decode 0x8AB8#16 = .invalid 0x8AB8#16 ∧
  decode 0xD121#16 = .op (.draw 0x1#4 0x2#4 0x1#4) ∧ decode 0xEA9E#16 = .op (.keyPressed 0xA#4) ∧
  decode 0xFA55#16 = .op (.dumpRegisters 0xA#4)

/-- Decoding an encoded well-formed instruction gives it back: no operand bit is dropped (R63, R66). -/
def Obligations.DecodeOfEncodeIsTheInstruction : Prop :=
  ∀ i : Instr, i.wf = true → decode (encode i) = .op i

/-- Every word that decodes is the encoding of what it decodes to, which is well-formed (R66, R72; that families 5 and 9 fix
the last nibble is decision D21, log entry 8). -/
def Obligations.EncodeOfDecodeIsTheWord : Prop :=
  ∀ (w : Word) (i : Instr), decode w = .op i → encode i = w ∧ i.wf = true

/-- The decoder is the opcode map: a word decodes to the first row with `(w and mask) = match`, and is invalid where no
row matches (R66; row 3 also by R65. That families 5 and 9 fix the last nibble is decision D21, which second byte of family F
is which operation D15 and G1, and of family E G2; all log entry 8). -/
def Obligations.DecoderIsTheOpcodeMap : Prop :=
  opcodeMap.length = 35 ∧ ∀ w : Word, decode w = decodeByMap w

/-- The two full-word patterns win over the family pattern `0nnn` (row 3); any two other rows share no word (R65). -/
def Obligations.OpcodeRowsAreDisjoint : Prop :=
  decode 0x00E0#16 = .op .clearDisplay ∧ decode 0x00EE#16 = .op .ret ∧
  ∀ (j k : Nat) (rj rk : OpcodeRow) (w : Word), j < k → opcodeMap[j]? = some rj → opcodeMap[k]? = some rk →
    w &&& rj.mask = rj.fixed → w &&& rk.mask = rk.fixed → k = 2

/-- The invalid words are exactly those of the table of R73 (families 5 and 9 with another last nibble: decision D21; the
bytes of families E and F: G2, D15 and G1; all log entry 8). -/
def Obligations.InvalidWordsAreExactlyThese : Prop :=
  ∀ w : Word, decode w = .invalid w ↔
    ((fieldN0 w = 0x5#4 ∨ fieldN0 w = 0x9#4) ∧ fieldN w ≠ 0x0#4) ∨
    (fieldN0 w = 0x8#4 ∧ fieldN w ∈ [0x8#4, 0x9#4, 0xA#4, 0xB#4, 0xC#4, 0xD#4, 0xF#4]) ∨
    (fieldN0 w = 0xE#4 ∧ fieldKk w ∉ [0x9E#8, 0xA1#8]) ∨
    (fieldN0 w = 0xF#4 ∧
      fieldKk w ∉ [0x07#8, 0x0A#8, 0x15#8, 0x18#8, 0x1E#8, 0x29#8, 0x33#8, 0x55#8, 0x65#8])

/-! The step -/

/-- A step whose two bytes at pc, the first more significant, make a word that decodes to `i` is `exec i` on the state with
pc advanced by 2 and the step's result set to Ok (R80 to R84). -/
def Obligations.StepRunsTheDecodedInstruction : Prop :=
  ∀ (s : State) (w : Word) (i : Instr), s.pc.toNat ≤ 4094 →
    w.toNat = 256 * (s.mem.read s.pc.toNat).toNat + (s.mem.read (s.pc.toNat + 1)).toNat → decode w = .op i →
    step s = exec i { s with pc := s.pc + 2#16, result := .ok }

/-- A fetch at pc 4095 or more raises MemoryOutOfBounds(pc, 2) and changes nothing, pc included; and stepping on fails in
the same way for ever: any number of further steps leaves the state the first one left (R81, R188, R192). -/
def Obligations.FetchPastMemoryFaultsForEver : Prop :=
  ∀ s : State, 4095 ≤ s.pc.toNat →
    ∃ t, step s = .next t ∧ OnlyRaises (.memoryOutOfBounds s.pc.toNat 2) s t ∧ ∀ k, core.run (k + 1) s = .next t

/-- A fetched word that is invalid raises InvalidOpCode(w) after the advance, and nothing else changes (R83, R182). -/
def Obligations.InvalidWordFaultsAfterTheAdvance : Prop :=
  ∀ (s : State) (w : Word), s.fetch = .ok w → decode w = .invalid w →
    ∃ t, step s = .next t ∧ OnlyRaises (.invalidOpCode w) { s with pc := s.pc + 2#16 } t ∧
      t.pc.toNat = s.pc.toNat + 2

/-- A step always answers, from every state, and so does every instruction (R80 "always returns", R85, R192). -/
def Obligations.EveryStepAnswers : Prop :=
  (∀ s : State, ∃ t, step s = .next t) ∧ ∀ (i : Instr) (s : State), ∃ t, exec i s = .next t

/-- Faults are precise: a step that raises a fault changes no register, no byte of memory, no pixel, nothing of the stack,
I, the timers or the Random Source; pc is the instruction's address plus 2, or unchanged where the fetch failed (R188). -/
def Obligations.FaultingStepsArePrecise : Prop :=
  ∀ (s t : State) (f : Fault), step s = .next t → t.result = .raised f →
    KeepsRegsBut [] s t ∧ KeepsCore s t ∧ t.firstFault = s.firstFault.or (some f) ∧
    ((s.pc.toNat ≤ 4094 ∧ t.pc.toNat = s.pc.toNat + 2) ∨
      (4095 ≤ s.pc.toNat ∧ t.pc = s.pc ∧ f = .memoryOutOfBounds s.pc.toNat 2))

/-- Every step keeps the invariant: memory in canonical form inside 0..4095, pc at most 4350, stack entries 2..4096 and
within STACK_DEPTH, a raised fault on record. -/
def Obligations.EveryStepKeepsTheInvariant : Prop :=
  ∀ s t : State, s.Inv → step s = .next t → t.Inv

/-- The state after reset meets the invariant. -/
def Obligations.ResetMeetsTheInvariant : Prop := State.reset.Inv

/-- Every host operation keeps the invariant; a Reset establishes it for every INITIAL_PC up to 4350 (R210, R214, R217). -/
def Obligations.HostOperationsKeepTheInvariant : Prop :=
  ∀ (op : HostOp) (s : State), s.Inv → (∀ c, op = .reset c → c.initialPc.toNat ≤ 4350) → (hostDo op s).1.Inv

/-- No step reads the model's records: two states that differ only in `result` and `firstFault` step to the same result
and to states that differ only there (R28: CORE latches no fault). -/
def Obligations.StepsNeverReadTheRecords : Prop :=
  ∀ (s t : State) (r : Result) (ff : Option Fault), step s = .next t →
    ∃ t', step { s with result := r, firstFault := ff } = .next t' ∧ t'.result = t.result ∧
      { t' with firstFault := t.firstFault } = t

/-- The first fault of a run is kept, and no later Ok clears it (R193; the field is the model's, log entry 2). -/
def Obligations.FirstFaultIsKept : Prop :=
  ∀ s t : State, step s = .next t →
    t.firstFault = s.firstFault.or (match t.result with | .ok => none | .raised f => some f)

/-! Reset and the host's operations -/

/-- The state after Reset with the default arguments: pc 0x0200 and memory 00 are the source's values, the other zeros
the spec's own decision D4 (R29). Every byte, register and pixel is named. -/
def Obligations.ResetStateIsAsListed : Prop :=
  (∀ r, State.reset.reg r = 0x00#8) ∧ State.reset.I.toNat = 0 ∧ State.reset.pc.toNat = 512 ∧ State.reset.stack = [] ∧
  State.reset.DT = 0x00#8 ∧ State.reset.ST = 0x00#8 ∧ (∀ a, State.reset.mem.read a = 0x00#8) ∧
  (∀ x y, State.reset.FB.pixel x y = false) ∧ State.reset.rand.requests = 0 ∧ State.reset.stackDepth = none

/-- Reset with any arguments: where the image fits, it lies at INITIAL_PC and every other byte of the 4096 is FILL; where
it does not, `loaded` is false and every byte is FILL; the rest is as after reset. An image fits where INITIAL_PC + length is
at most 4096, except that for one byte at 4095 it is a free value, on which the rules disagree, whether it does: the
statement holds for both answers (R210, R212, R214; log entry 10). In particular every non-empty load at 4096 or more
fails (R212). -/
def Obligations.LaunchFillsThenLoads : Prop :=
  ∀ c : ResetConfig,
    let s := (State.launch c).1
    let image := c.program.getD []
    let fits : Prop := c.program = none ∨ (c.initialPc.toNat + image.length ≤ 4096 ∧
      (c.initialPc.toNat = 4095 → image.length = 1 → Config.loadsAtLastAddress = true))
    ((State.launch c).2 = true ↔ fits) ∧
    (∀ a, a < 4096 → s.mem.read a =
      if fits ∧ c.initialPc.toNat ≤ a ∧ a < c.initialPc.toNat + image.length
      then image.getD (a - c.initialPc.toNat) 0x00#8 else c.fill) ∧
    s.pc = c.initialPc ∧ s.rand = ⟨c.seed, 0⟩ ∧ s.stackDepth = c.stackDepth ∧
    (∀ r, s.reg r = 0x00#8) ∧ s.I = 0x0000#16 ∧ s.stack = [] ∧ s.DT = 0x00#8 ∧ s.ST = 0x00#8 ∧
    (∀ x y, s.FB.pixel x y = false) ∧ s.result = .ok ∧ s.firstFault = none

/-- HostWrite is all or nothing: past the end of memory it answers false and writes nothing, else it answers true and
exactly the bytes at `offset` are written; nothing but memory changes (R214). -/
def Obligations.HostWriteIsAllOrNothing : Prop :=
  ∀ (s : State) (offset : Nat) (bytes : List Byte),
    (4096 < offset + bytes.length → s.hostWrite offset bytes = (s, false)) ∧
    (offset + bytes.length ≤ 4096 →
      (s.hostWrite offset bytes).2 = true ∧
      (∀ k, k < bytes.length → (s.hostWrite offset bytes).1.mem.read (offset + k) = bytes.getD k 0x00#8) ∧
      KeepsMemoryOutside offset bytes.length s (s.hostWrite offset bytes).1 ∧
      { (s.hostWrite offset bytes).1 with mem := s.mem } = s)

/-- The timer operations: a set is what the next get answers, the two timers are independent, and a tick lowers each
non-zero timer by one and leaves zero at zero; nothing else changes (R218, R196; what a tick does is the spec's general
knowledge G5, log entry 6, PRESUMED). -/
def Obligations.TimerOperationsSetAndTick : Prop :=
  ∀ (s : State) (v : Byte),
    hostDo .getDelay (hostDo (.setDelay v) s).1 = ({ s with DT := v }, .timer v) ∧
    hostDo .getSound (hostDo (.setSound v) s).1 = ({ s with ST := v }, .timer v) ∧
    (s.tick.DT.toNat = max s.DT.toNat 1 - 1 ∧ s.tick.ST.toNat = max s.ST.toNat 1 - 1) ∧
    { s.tick with DT := s.DT, ST := s.ST } = s

/-- ReadDisplay answers the 2048 pixels, element `x + 64*y` being FB[x, y], and changes nothing (R219, R25). -/
def Obligations.ReadDisplayIsInIndexOrder : Prop :=
  ∀ s : State, (hostDo .readDisplay s).1 = s ∧ (hostDo .readDisplay s).2 = .pixels s.readDisplay ∧
    s.readDisplay.length = 2048 ∧
    ∀ x y, x < 64 → y < 32 → s.readDisplay[x + 64 * y]? = some (s.FB.pixel x y)

/-! Control transfer -/

/-- Jump, the word with first nibble 1: pc becomes nnn, for every nnn, and nothing else changes; the advance made before execute is simply overwritten;
after a jump to 4095 the next fetch faults; and a jump to its own address, the advance included, leaves the whole state
as it was (R92). -/
def Obligations.JumpSetsPc : Prop :=
  ∀ (nnn : Addr12) (s : State), decode (0x1#4 ++ nnn) = .op (.jump nnn) ∧
    ∃ t, exec (.jump nnn) s = .next t ∧ t.pc.toNat = nnn.toNat ∧ OnlyPc s t ∧
    exec (.jump nnn) s.advance = .next t ∧
    (nnn.toNat = 4095 → t.fetch = .error (.memoryOutOfBounds 4095 2)) ∧
    (s.pc.toNat = nnn.toNat → t = s)

/-- JumpPlusOffset: pc becomes the integer sum nnn + V[0], neither masked nor wrapped (R94; unmasked is decision D23). -/
def Obligations.JumpPlusOffsetAddsV0 : Prop :=
  ∀ (nnn : Addr12) (s : State), ∃ t, exec (.jumpPlusOffset nnn) s = .next t ∧
    t.pc.toNat = nnn.toNat + (s.reg 0x0#4).toNat ∧ t.pc.toNat ≤ 4350 ∧ OnlyPc s t

/-- CallSubroutine: where the stack is not full (always, with STACK_DEPTH unbounded), the advanced pc is pushed and pc
becomes nnn; with a finite STACK_DEPTH and a full stack, StackOverflow is raised before any change (R93; D3). -/
def Obligations.CallPushesTheReturnAddress : Prop :=
  ∀ (nnn : Addr12) (s : State),
    ((∀ d, s.stackDepth = some d → s.stack.length < d) →
      ∃ t, exec (.callSubroutine nnn) s = .next t ∧ t.stack = s.pc :: s.stack ∧ t.pc.toNat = nnn.toNat ∧
        KeepsRegsBut [] s t ∧ t.I = s.I ∧ KeepsTimers s t ∧ KeepsDisplay s t ∧ KeepsMemory s t ∧ KeepsOutside s t ∧
        KeepsRecord s t) ∧
    (∀ d, s.stackDepth = some d → d ≤ s.stack.length →
      ∃ t, exec (.callSubroutine nnn) s = .next t ∧ OnlyRaises (.stackOverflow (encode (.callSubroutine nnn))) s t)

/-- Return: the top entry is removed and becomes pc; with an empty stack InvalidReturn is raised and the stack stays
empty (R90, R183). -/
def Obligations.ReturnPopsIntoPc : Prop :=
  ∀ s : State,
    (∀ v rest, s.stack = v :: rest →
      ∃ t, exec .ret s = .next t ∧ t.pc = v ∧ t.stack = rest ∧
        KeepsRegsBut [] s t ∧ t.I = s.I ∧ KeepsTimers s t ∧ KeepsDisplay s t ∧ KeepsMemory s t ∧ KeepsOutside s t ∧
        KeepsRecord s t) ∧
    (s.stack = [] → ∃ t, exec .ret s = .next t ∧ OnlyRaises .invalidReturn s t)

/-- A call at address a, then a Return from any state that left the stack as the call made it, brings pc to a + 2 and the
stack back (R90, R93). -/
def Obligations.ReturnAfterCallRestoresPc : Prop :=
  ∀ (s : State) (nnn : Addr12), s.holdsAtPc (.callSubroutine nnn) →
    (∀ d, s.stackDepth = some d → s.stack.length < d) →
    ∃ t, step s = .next t ∧ t.pc.toNat = nnn.toNat ∧
      ∀ u : State, u.stack = t.stack → u.holdsAtPc .ret →
        ∃ v, step u = .next v ∧ v.pc.toNat = s.pc.toNat + 2 ∧ v.stack = s.stack ∧ v.result = .ok

/-- A Jump to its own address is a fixed point: the step returns Ok and leaves the whole state as it was, but for the
model's record of the result (R222). -/
def Obligations.SelfJumpIsAFixedPoint : Prop :=
  ∀ (s : State) (nnn : Addr12), s.pc.toNat = nnn.toNat → s.holdsAtPc (.jump nnn) →
    step s = .next { s with result := .ok }

/-! Skips -/

/-- The four skips, with first nibbles 3, 4, 5 and 9 (and last nibble 0 for the two register forms, any other being an
invalid opcode): pc is advanced by 2 more iff the condition holds; nothing else changes (R101 to R104; that another last
nibble is invalid is decision D21, log entry 8). -/
def Obligations.SkipsAdvancePcIffTheConditionHolds : Prop :=
  ∀ (rx ry : RegIx) (kk : Byte) (s : State),
    decode (0x3#4 ++ rx ++ kk) = .op (.skipIfRegEqConst rx kk) ∧ decode (0x4#4 ++ rx ++ kk) = .op (.skipIfRegNeqConst rx kk) ∧
    (∀ n : Nibble, decode (0x5#4 ++ rx ++ ry ++ n) =
      if n = 0x0#4 then .op (.skipIfRegEqReg rx ry) else .invalid (0x5#4 ++ rx ++ ry ++ n)) ∧
    (∀ n : Nibble, decode (0x9#4 ++ rx ++ ry ++ n) =
      if n = 0x0#4 then .op (.skipIfRegNeqReg rx ry) else .invalid (0x9#4 ++ rx ++ ry ++ n)) ∧
    (∃ t, exec (.skipIfRegEqConst rx kk) s = .next t ∧ OnlyPc s t ∧
      (s.reg rx = kk → t.pc = s.pc + 2#16) ∧ (s.reg rx ≠ kk → t.pc = s.pc)) ∧
    (∃ t, exec (.skipIfRegNeqConst rx kk) s = .next t ∧ OnlyPc s t ∧
      (s.reg rx ≠ kk → t.pc = s.pc + 2#16) ∧ (s.reg rx = kk → t.pc = s.pc)) ∧
    (∃ t, exec (.skipIfRegEqReg rx ry) s = .next t ∧ OnlyPc s t ∧
      (s.reg rx = s.reg ry → t.pc = s.pc + 2#16) ∧ (s.reg rx ≠ s.reg ry → t.pc = s.pc)) ∧
    (∃ t, exec (.skipIfRegNeqReg rx ry) s = .next t ∧ OnlyPc s t ∧
      (s.reg rx ≠ s.reg ry → t.pc = s.pc + 2#16) ∧ (s.reg rx = s.reg ry → t.pc = s.pc))

/-- Measured from the address of the skip, a step moves pc by exactly 4 where the condition holds and by exactly 2 where
it does not, without wrap, changes nothing else and raises no fault; where pc is then 4095 or more, the next fetch
faults (R100). -/
def Obligations.SkipStepsMovePcByFourOrTwo : Prop :=
  ∀ (i : Instr) (c : Prop) (s : State), s.holdsAtPc i →
    ((∃ rx kk, i = .skipIfRegEqConst rx kk ∧ (c ↔ s.reg rx = kk)) ∨
      (∃ rx kk, i = .skipIfRegNeqConst rx kk ∧ (c ↔ s.reg rx ≠ kk)) ∨
      (∃ rx ry, i = .skipIfRegEqReg rx ry ∧ (c ↔ s.reg rx = s.reg ry)) ∨
      (∃ rx ry, i = .skipIfRegNeqReg rx ry ∧ (c ↔ s.reg rx ≠ s.reg ry))) →
    ∃ t, step s = .next t ∧ (c → t.pc.toNat = s.pc.toNat + 4) ∧ (¬ c → t.pc.toNat = s.pc.toNat + 2) ∧
      KeepsRegsBut [] s t ∧ KeepsCore s t ∧ t.result = .ok ∧ t.firstFault = s.firstFault ∧
      (4095 ≤ t.pc.toNat → t.fetch = .error (.memoryOutOfBounds t.pc.toNat 2))

/-! Constant loads -/

/-- SetRegConst, the word with first nibble 6: V[rx] becomes kk; no other register changes, VF only if it is rx (R110). -/
def Obligations.SetRegConstWritesItsRegister : Prop :=
  ∀ (rx : RegIx) (kk : Byte) (s : State), decode (0x6#4 ++ rx ++ kk) = .op (.setRegConst rx kk) ∧
    ∃ t, exec (.setRegConst rx kk) s = .next t ∧ t.reg rx = kk ∧ OnlyRegs [rx] s t

/-- AddRegConst: V[rx] becomes (V[rx] + kk) mod 256 and no flag is written (R111; wrap and no flag are decision D11). -/
def Obligations.AddRegConstWrapsWithoutFlag : Prop :=
  ∀ (rx : RegIx) (kk : Byte) (s : State), ∃ t, exec (.addRegConst rx kk) s = .next t ∧
    (t.reg rx).toNat = ((s.reg rx).toNat + kk.toNat) % 256 ∧ OnlyRegs [rx] s t

/-- SetAddrRegConst, the word with first nibble A: I becomes nnn, bits 15:12 zero; nothing else changes (R112). -/
def Obligations.SetAddrRegConstSetsI : Prop :=
  ∀ (nnn : Addr12) (s : State), decode (0xA#4 ++ nnn) = .op (.setAddrRegConst nnn) ∧
    ∃ t, exec (.setAddrRegConst nnn) s = .next t ∧ t.I.toNat = nnn.toNat ∧
    KeepsRegsBut [] s t ∧ t.pc = s.pc ∧ t.stack = s.stack ∧ KeepsTimers s t ∧ KeepsDisplay s t ∧ KeepsMemory s t ∧
    KeepsOutside s t ∧ KeepsRecord s t

/-- SetRegRandomMasked: V[rx] becomes the byte of the next request masked by kk, a submask of kk, and exactly one request
is made; it holds for every sequence of bytes (R113, R27; the free byte is decision D18). -/
def Obligations.RandomMaskedMakesOneRequest : Prop :=
  ∀ (rx : RegIx) (kk : Byte) (s : State), ∃ t, exec (.setRegRandomMasked rx kk) s = .next t ∧
    t.reg rx = Config.randByte s.rand.seed s.rand.requests &&& kk ∧ t.reg rx &&& ~~~kk = 0x00#8 ∧
    t.rand.seed = s.rand.seed ∧ t.rand.requests = s.rand.requests + 1 ∧ t.stackDepth = s.stackDepth ∧
    KeepsRegsBut [rx] s t ∧ t.pc = s.pc ∧ t.I = s.I ∧ t.stack = s.stack ∧ KeepsTimers s t ∧ KeepsDisplay s t ∧
    KeepsMemory s t ∧ KeepsRecord s t

/-! The ALU family -/

/-- CopyReg, OrReg, AndReg, XorReg: V[rx] receives V[ry], or the bitwise or, and, xor of the two, bit by bit; VF is not
written unless it is rx (R121 to R124; direction and no flag are decision D10). -/
def Obligations.CopyAndLogicWriteTheDestination : Prop :=
  ∀ (rx ry : RegIx) (s : State),
    (∃ t, exec (.copyReg rx ry) s = .next t ∧ t.reg rx = s.reg ry ∧ OnlyRegs [rx] s t) ∧
    (∃ t, exec (.orReg rx ry) s = .next t ∧ OnlyRegs [rx] s t ∧
      ∀ k, k < 8 → (t.reg rx).getLsbD k = ((s.reg rx).getLsbD k || (s.reg ry).getLsbD k)) ∧
    (∃ t, exec (.andReg rx ry) s = .next t ∧ OnlyRegs [rx] s t ∧
      ∀ k, k < 8 → (t.reg rx).getLsbD k = ((s.reg rx).getLsbD k && (s.reg ry).getLsbD k)) ∧
    (∃ t, exec (.xorReg rx ry) s = .next t ∧ OnlyRegs [rx] s t ∧
      ∀ k, k < 8 → (t.reg rx).getLsbD k = ((s.reg rx).getLsbD k ^^ (s.reg ry).getLsbD k))

/-- AddReg: V[rx] receives the wrapped sum of the two old values, and VF, unless it is rx, receives 1 if the sum passes
255, else 0 (R125, R120; that the result stays where rx is VF is decision D9, R130). -/
def Obligations.AddRegGivesSumAndCarry : Prop :=
  ∀ (rx ry : RegIx) (s : State), ∃ t, exec (.addReg rx ry) s = .next t ∧
    (t.reg rx).toNat = ((s.reg rx).toNat + (s.reg ry).toNat) % 256 ∧
    (rx ≠ 0xF#4 → (t.reg 0xF#4).toNat = if (s.reg rx).toNat + (s.reg ry).toNat > 255 then 1 else 0) ∧
    OnlyRegs [rx, 0xF#4] s t

/-- SubReg and ReverseSubReg: V[rx] receives the wrapped difference V[rx] - V[ry], or V[ry] - V[rx], of the two old values,
and VF, unless it is rx, receives 1 if there is no borrow, else 0 (R126, R128, R120, R131; where rx is VF, decision D9,
R130). -/
def Obligations.SubtractionsGiveDifferenceAndNoBorrow : Prop :=
  ∀ (rx ry : RegIx) (s : State),
    (∃ t, exec (.subReg rx ry) s = .next t ∧
      ((t.reg rx).toNat : Int) = (((s.reg rx).toNat : Int) - ((s.reg ry).toNat : Int)) % 256 ∧
      (rx ≠ 0xF#4 → (t.reg 0xF#4).toNat = if (s.reg rx).toNat ≥ (s.reg ry).toNat then 1 else 0) ∧
      OnlyRegs [rx, 0xF#4] s t) ∧
    (∃ t, exec (.reverseSubReg rx ry) s = .next t ∧
      ((t.reg rx).toNat : Int) = (((s.reg ry).toNat : Int) - ((s.reg rx).toNat : Int)) % 256 ∧
      (rx ≠ 0xF#4 → (t.reg 0xF#4).toNat = if (s.reg ry).toNat ≥ (s.reg rx).toNat then 1 else 0) ∧
      OnlyRegs [rx, 0xF#4] s t)

/-- ShiftRight and ShiftLeft: V[rx] is shifted in place by one, and VF, unless it is rx, receives the bit shifted out;
the value of ry makes no difference (R127, R129; in place and ry ignored are decision D8, where rx is VF D9). -/
def Obligations.ShiftsMoveOneBitOut : Prop :=
  ∀ (rx ry : RegIx) (s : State),
    (∃ t, exec (.shiftRight rx ry) s = .next t ∧ (t.reg rx).toNat = (s.reg rx).toNat / 2 ∧
      (rx ≠ 0xF#4 → (t.reg 0xF#4).toNat = (s.reg rx).toNat % 2) ∧ OnlyRegs [rx, 0xF#4] s t) ∧
    (∃ t, exec (.shiftLeft rx ry) s = .next t ∧ (t.reg rx).toNat = (2 * (s.reg rx).toNat) % 256 ∧
      (rx ≠ 0xF#4 → (t.reg 0xF#4).toNat = (s.reg rx).toNat / 128) ∧ OnlyRegs [rx, 0xF#4] s t)

/-- The flag is 0 or 1: after an AddReg, SubReg, ShiftRight, ReverseSubReg or ShiftLeft whose rx is not VF, and after every
Draw that raises no fault, VF holds exactly 0 or 1 (R13). -/
def Obligations.FlagsAreZeroOrOne : Prop :=
  ∀ (i : Instr) (s t : State), s.result = .ok →
    ((∃ rx ry, rx ≠ 0xF#4 ∧ (i = .addReg rx ry ∨ i = .subReg rx ry ∨ i = .shiftRight rx ry ∨ i = .reverseSubReg rx ry ∨
      i = .shiftLeft rx ry)) ∨ ∃ rx ry n, i = .draw rx ry n) →
    exec i s = .next t → t.result = .ok → t.reg 0xF#4 = 0x00#8 ∨ t.reg 0xF#4 = 0x01#8

/-! Display -/

/-- ClearDisplay: every pixel is unset, nothing else changes, VF included (R142; that 00E0 is implemented is D5). -/
def Obligations.ClearDisplayUnsetsEveryPixel : Prop :=
  ∀ s : State, ∃ t, exec .clearDisplay s = .next t ∧ (∀ x y, t.FB.pixel x y = false) ∧
    KeepsRegsBut [] s t ∧ t.pc = s.pc ∧ t.I = s.I ∧ t.stack = s.stack ∧ KeepsTimers s t ∧ KeepsMemory s t ∧
    KeepsOutside s t ∧ KeepsRecord s t

/-- Draw inside memory and the grid (or of height 0): every pixel becomes its old value xor the sprite's bit there, VF is 1
if a set bit met a set pixel and 0 otherwise, and nothing else changes, I included. x and y are the old values of V[rx]
and V[ry], not reduced (R141, R143; bit 7 leftmost D7, I kept D14, height 0 D24, coordinates D25). -/
def Obligations.DrawXorsTheSpriteIn : Prop :=
  ∀ (rx ry : RegIx) (n : Nibble) (s : State),
    (n.toNat ≠ 0 → s.I.toNat + n.toNat ≤ 4096 ∧ (s.reg rx).toNat + 8 ≤ 64 ∧ (s.reg ry).toNat + n.toNat ≤ 32) →
    let bit := spriteAt s.mem s.I.toNat (s.reg rx).toNat (s.reg ry).toNat n.toNat
    ∃ t, exec (.draw rx ry n) s = .next t ∧
      (∀ px py, t.FB.pixel px py = (s.FB.pixel px py ^^ bit px py)) ∧
      ((∃ px py, bit px py = true ∧ s.FB.pixel px py = true) → t.reg 0xF#4 = 0x01#8) ∧
      ((¬ ∃ px py, bit px py = true ∧ s.FB.pixel px py = true) → t.reg 0xF#4 = 0x00#8) ∧
      KeepsRegsBut [0xF#4] s t ∧ t.pc = s.pc ∧ t.I = s.I ∧ t.stack = s.stack ∧ KeepsTimers s t ∧ KeepsMemory s t ∧
      KeepsOutside s t ∧ KeepsRecord s t

/-- Draw outside: rows past the end of memory raise MemoryOutOfBounds(I, n) whatever the coordinates; rows in memory and a
pixel outside the grid raise DisplayOutOfBounds(x, y, n); no pixel and not VF is written (R141, R145, R189;
D6, I unmasked D13, coordinates not reduced D25, log entry 8). -/
def Obligations.DrawRaisesMemoryBeforeDisplay : Prop :=
  ∀ (rx ry : RegIx) (n : Nibble) (s : State), n.toNat ≠ 0 →
    (4096 < s.I.toNat + n.toNat →
      ∃ t, exec (.draw rx ry n) s = .next t ∧ OnlyRaises (.memoryOutOfBounds s.I.toNat n.toNat) s t) ∧
    (s.I.toNat + n.toNat ≤ 4096 → ((s.reg rx).toNat > 56 ∨ (s.reg ry).toNat + n.toNat > 32) →
      ∃ t, exec (.draw rx ry n) s = .next t ∧
        OnlyRaises (.displayOutOfBounds (s.reg rx).toNat (s.reg ry).toNat n.toNat) s t)

/-- Drawing the same sprite twice at the same place cancels out: a second draw, from any state with the first one's
framebuffer and the same coordinates, I and memory, restores every pixel; on a clear screen the first draw reports no
collision and the second reports one iff the sprite has a set bit (R146). -/
def Obligations.DrawTwiceCancelsOut : Prop :=
  ∀ (rx ry : RegIx) (n : Nibble) (s u : State),
    (n.toNat ≠ 0 → s.I.toNat + n.toNat ≤ 4096 ∧ (s.reg rx).toNat + 8 ≤ 64 ∧ (s.reg ry).toNat + n.toNat ≤ 32) →
    u.I = s.I → u.reg rx = s.reg rx → u.reg ry = s.reg ry → KeepsMemory s u →
    ∃ t, exec (.draw rx ry n) s = .next t ∧
      (u.FB = t.FB → ∃ v, exec (.draw rx ry n) u = .next v ∧ KeepsDisplay s v ∧
        ((∀ x y, s.FB.pixel x y = false) →
          t.reg 0xF#4 = 0x00#8 ∧
          (v.reg 0xF#4 = 0x01#8 ↔ ∃ k, k < n.toNat ∧ s.mem.read (s.I.toNat + k) ≠ 0x00#8)))

/-! The rejected five -/

/-- CallMachineCode, KeyPressed, KeyNotPressed, WaitKey, SpriteAddressRegister: each raises UnsupportedOperation with its
word, and nothing else changes (R184, R91, R150 to R152, R164; rejecting them is decision D5). -/
def Obligations.UnsupportedInstructionsRaise : Prop :=
  ∀ (nnn : Addr12) (rx : RegIx) (s : State),
    (∃ t, exec (.callMachineCode nnn) s = .next t ∧ OnlyRaises (.unsupportedOperation (encode (.callMachineCode nnn))) s t) ∧
    (∃ t, exec (.keyPressed rx) s = .next t ∧ OnlyRaises (.unsupportedOperation (encode (.keyPressed rx))) s t) ∧
    (∃ t, exec (.keyNotPressed rx) s = .next t ∧ OnlyRaises (.unsupportedOperation (encode (.keyNotPressed rx))) s t) ∧
    (∃ t, exec (.waitKey rx) s = .next t ∧ OnlyRaises (.unsupportedOperation (encode (.waitKey rx))) s t) ∧
    (∃ t, exec (.spriteAddressRegister rx) s = .next t ∧
      OnlyRaises (.unsupportedOperation (encode (.spriteAddressRegister rx))) s t)

/-- The word an UnsupportedOperation or StackOverflow of a step reports is the word that was fetched (R180; what a
fault carries is decision D20, log entry 8). -/
def Obligations.ReportedWordIsTheFetchedWord : Prop :=
  ∀ (s t : State) (w w' : Word), s.fetch = .ok w → step s = .next t →
    (t.result = .raised (.unsupportedOperation w') ∨ t.result = .raised (.stackOverflow w') ∨
      t.result = .raised (.invalidOpCode w')) → w' = w

/-! The F family -/

/-- The timer instructions: GetDelayTimer copies DT to V[rx], SetDelayTimer and SetSoundTimer copy V[rx] to DT and to ST;
nothing else changes (R160 to R162; which byte selects which is D15). -/
def Obligations.TimerInstructionsCopy : Prop :=
  ∀ (rx : RegIx) (s : State),
    (∃ t, exec (.getDelayTimer rx) s = .next t ∧ t.reg rx = s.DT ∧ OnlyRegs [rx] s t) ∧
    (∃ t, exec (.setDelayTimer rx) s = .next t ∧ t.DT = s.reg rx ∧ t.ST = s.ST ∧ KeepsRegsBut [] s t ∧ t.pc = s.pc ∧
      t.I = s.I ∧ t.stack = s.stack ∧ KeepsDisplay s t ∧ KeepsMemory s t ∧ KeepsOutside s t ∧ KeepsRecord s t) ∧
    (∃ t, exec (.setSoundTimer rx) s = .next t ∧ t.ST = s.reg rx ∧ t.DT = s.DT ∧ KeepsRegsBut [] s t ∧ t.pc = s.pc ∧
      t.I = s.I ∧ t.stack = s.stack ∧ KeepsDisplay s t ∧ KeepsMemory s t ∧ KeepsOutside s t ∧ KeepsRecord s t)

/-- AddAddressRegister: I becomes (I + V[rx]) mod 65536 and no flag is written (R163; the wrap is decision D12). -/
def Obligations.AddAddressRegisterWrapsWithoutFlag : Prop :=
  ∀ (rx : RegIx) (s : State), ∃ t, exec (.addAddressRegister rx) s = .next t ∧
    t.I.toNat = (s.I.toNat + (s.reg rx).toNat) % 65536 ∧
    KeepsRegsBut [] s t ∧ t.pc = s.pc ∧ t.stack = s.stack ∧ KeepsTimers s t ∧ KeepsDisplay s t ∧ KeepsMemory s t ∧
    KeepsOutside s t ∧ KeepsRecord s t

/-- StoreBCD inside memory: the bytes at I, I+1, I+2 become three decimal digits whose number is V[rx]; no other byte and
nothing else changes, I included (R165; I kept is decision D14, log entry 8). -/
def Obligations.StoreBCDWritesThreeDigits : Prop :=
  ∀ (rx : RegIx) (s : State), s.I.toNat + 2 ≤ 4095 →
    ∃ t, exec (.storeBCD rx) s = .next t ∧
      (t.mem.read s.I.toNat).toNat = (s.reg rx).toNat / 100 ∧
      (t.mem.read (s.I.toNat + 1)).toNat = (s.reg rx).toNat / 10 % 10 ∧
      (t.mem.read (s.I.toNat + 2)).toNat = (s.reg rx).toNat % 10 ∧
      KeepsMemoryOutside s.I.toNat 3 s t ∧
      KeepsRegsBut [] s t ∧ t.pc = s.pc ∧ t.I = s.I ∧ t.stack = s.stack ∧ KeepsTimers s t ∧ KeepsDisplay s t ∧
      KeepsOutside s t ∧ KeepsRecord s t

/-- DumpRegisters inside memory: the byte at I + k becomes V[k] for every k up to rx; no other byte and nothing else
changes, I included (R166; I kept is decision D14). -/
def Obligations.DumpRegistersCopiesOut : Prop :=
  ∀ (rx : RegIx) (s : State), s.I.toNat + rx.toNat ≤ 4095 →
    ∃ t, exec (.dumpRegisters rx) s = .next t ∧
      (∀ k : RegIx, k.toNat ≤ rx.toNat → t.mem.read (s.I.toNat + k.toNat) = s.reg k) ∧
      KeepsMemoryOutside s.I.toNat (rx.toNat + 1) s t ∧
      KeepsRegsBut [] s t ∧ t.pc = s.pc ∧ t.I = s.I ∧ t.stack = s.stack ∧ KeepsTimers s t ∧ KeepsDisplay s t ∧
      KeepsOutside s t ∧ KeepsRecord s t

/-- LoadRegisters inside memory: V[k] becomes the byte at I + k for every k up to rx, VF included where rx is 15; the
registers above keep their values and nothing else changes, I included (R167; I kept is decision D14). -/
def Obligations.LoadRegistersCopiesIn : Prop :=
  ∀ (rx : RegIx) (s : State), s.I.toNat + rx.toNat ≤ 4095 →
    ∃ t, exec (.loadRegisters rx) s = .next t ∧
      (∀ k : RegIx, k.toNat ≤ rx.toNat → t.reg k = s.mem.read (s.I.toNat + k.toNat)) ∧
      (∀ k : RegIx, rx.toNat < k.toNat → t.reg k = s.reg k) ∧
      t.pc = s.pc ∧ KeepsCore s t ∧ KeepsRecord s t

/-- StoreBCD, DumpRegisters and LoadRegisters past the end of memory raise MemoryOutOfBounds(I, count) and write no byte and
no register, not even those that would fit (R44, R181, R188; I is used unmasked, D13). -/
def Obligations.TransfersPastMemoryRaise : Prop :=
  ∀ (rx : RegIx) (s : State),
    (4095 < s.I.toNat + 2 →
      ∃ t, exec (.storeBCD rx) s = .next t ∧ OnlyRaises (.memoryOutOfBounds s.I.toNat 3) s t) ∧
    (4095 < s.I.toNat + rx.toNat →
      ∃ t, exec (.dumpRegisters rx) s = .next t ∧ OnlyRaises (.memoryOutOfBounds s.I.toNat (rx.toNat + 1)) s t) ∧
    (4095 < s.I.toNat + rx.toNat →
      ∃ t, exec (.loadRegisters rx) s = .next t ∧ OnlyRaises (.memoryOutOfBounds s.I.toNat (rx.toNat + 1)) s t)

/-- A dump and then a load of the same block, from any state with the dumped memory and the same I, gives back the dumped
registers (R166, R167, R52). -/
def Obligations.LoadAfterDumpRestoresRegisters : Prop :=
  ∀ (rx : RegIx) (s u : State), s.I.toNat + rx.toNat ≤ 4095 → u.I = s.I →
    ∃ t, exec (.dumpRegisters rx) s = .next t ∧
      (KeepsMemory t u → ∃ v, exec (.loadRegisters rx) u = .next v ∧
        ∀ k : RegIx, k.toNat ≤ rx.toNat → v.reg k = s.reg k)

/-- A stored byte is what the very next fetch reads: after a StoreBCD, a DumpRegisters or a HostWrite that succeeds, the
fetch at pc gives the word whose two bytes are, each for itself, the byte stored there, or the old byte where none was
stored; so also where the store covers only one of the two (R55, R227). -/
def Obligations.StoredBytesAreFetchedNext : Prop :=
  ∀ s : State, s.pc.toNat ≤ 4094 →
    (∀ rx, s.I.toNat + 2 ≤ 4095 →
      let v := (s.reg rx).toNat
      let byteAt (a : Nat) : Nat :=
        if a = s.I.toNat then v / 100 else if a = s.I.toNat + 1 then v / 10 % 10
        else if a = s.I.toNat + 2 then v % 10 else (s.mem.read a).toNat
      ∃ t w, exec (.storeBCD rx) s = .next t ∧ t.fetch = .ok w ∧
        w.toNat = 256 * byteAt s.pc.toNat + byteAt (s.pc.toNat + 1)) ∧
    (∀ rx, s.I.toNat + rx.toNat ≤ 4095 →
      let byteAt (a : Nat) : Byte :=
        if s.I.toNat ≤ a ∧ a ≤ s.I.toNat + rx.toNat then s.reg (BitVec.ofNat 4 (a - s.I.toNat)) else s.mem.read a
      ∃ t w, exec (.dumpRegisters rx) s = .next t ∧ t.fetch = .ok w ∧
        w.toNat = 256 * (byteAt s.pc.toNat).toNat + (byteAt (s.pc.toNat + 1)).toNat) ∧
    (∀ offset bytes, offset + bytes.length ≤ 4096 →
      let byteAt (a : Nat) : Byte :=
        if offset ≤ a ∧ a < offset + bytes.length then bytes.getD (a - offset) 0x00#8 else s.mem.read a
      ∃ w, (s.hostWrite offset bytes).1.fetch = .ok w ∧
        w.toNat = 256 * (byteAt s.pc.toNat).toNat + (byteAt (s.pc.toNat + 1)).toNat)

/-! Whole-machine rules: what a step may change, and which instruction may change it -/

/-- A step changes a byte of memory only by executing StoreBCD or DumpRegisters, and only a byte of the range the
instruction stores to (R24, R47, R48; that I is the unmasked base is decision D13, log entry 8). -/
def Obligations.MemoryChangesOnlyByStores : Prop :=
  ∀ (s t : State) (a : Nat), step s = .next t → t.mem.read a ≠ s.mem.read a →
    ∃ rx, (s.nextOp = some (.storeBCD rx) ∧ s.I.toNat ≤ a ∧ a ≤ s.I.toNat + 2) ∨
      (s.nextOp = some (.dumpRegisters rx) ∧ s.I.toNat ≤ a ∧ a ≤ s.I.toNat + rx.toNat)

/-- A step changes the stack only by executing CallSubroutine, which adds one entry, or Return, which removes one (R19). -/
def Obligations.StackChangesOnlyByCallAndReturn : Prop :=
  ∀ s t : State, step s = .next t → t.stack ≠ s.stack →
    (∃ nnn v, s.nextOp = some (.callSubroutine nnn) ∧ t.stack = v :: s.stack) ∨
      (s.nextOp = some .ret ∧ ∃ v, s.stack = v :: t.stack)

/-- A step changes a pixel only by executing ClearDisplay or Draw (R26). -/
def Obligations.DisplayChangesOnlyByClearAndDraw : Prop :=
  ∀ (s t : State) (x y : Nat), step s = .next t → t.FB.pixel x y ≠ s.FB.pixel x y →
    s.nextOp = some .clearDisplay ∨ ∃ rx ry n, s.nextOp = some (.draw rx ry n)

/-- A step changes I only by executing SetAddrRegConst or AddAddressRegister, DT only by executing SetDelayTimer, and ST
only by executing SetSoundTimer: CORE never counts the timers down (R15, R21, R22, R196; that the four instructions which
use I as a base leave it alone is decision D14). -/
def Obligations.SpecialRegistersChangeOnlyByTheirInstructions : Prop :=
  ∀ s t : State, step s = .next t →
    (t.I ≠ s.I →
      (∃ nnn, s.nextOp = some (.setAddrRegConst nnn)) ∨ ∃ rx, s.nextOp = some (.addAddressRegister rx)) ∧
    (t.DT ≠ s.DT → ∃ rx, s.nextOp = some (.setDelayTimer rx)) ∧
    (t.ST ≠ s.ST → ∃ rx, s.nextOp = some (.setSoundTimer rx))

/-- A step makes exactly one request to the Random Source where it executes SetRegRandomMasked and none otherwise; its seed
and STACK_DEPTH never change (R113, R27, R6). -/
def Obligations.RandomRequestsOnlyByRandomMasked : Prop :=
  ∀ s t : State, step s = .next t →
    t.rand.seed = s.rand.seed ∧ t.stackDepth = s.stackDepth ∧
    ((∃ rx kk, s.nextOp = some (.setRegRandomMasked rx kk)) → t.rand.requests = s.rand.requests + 1) ∧
    ((¬ ∃ rx kk, s.nextOp = some (.setRegRandomMasked rx kk)) → t.rand.requests = s.rand.requests)

/-- A step changes a general register only if the instruction it executes lists that register under "writes" (R11,
R87; that logic, copy and AddRegConst write no flag is decision D10 and D11, log entry 8). -/
def Obligations.RegistersChangeOnlyAsListed : Prop :=
  ∀ (s t : State) (r : RegIx), step s = .next t → t.reg r ≠ s.reg r →
    ∃ i, s.nextOp = some i ∧ regWrites i r

/-- Where pc goes, exactly: unchanged by a failed fetch; else to the value the instruction itself gives it (nnn for Jump and
for a CallSubroutine that finds room, nnn + V[0] unmasked for JumpPlusOffset, the popped entry for Return, 4 further for
a skip whose condition holds); else 2 further, invalid words and faults included. As integers, so pc never wraps
(R17, R82; the unmasked sum is decision D23, log entry 8). -/
def Obligations.PcMovesOnlyAsListed : Prop :=
  ∀ s t : State, step s = .next t →
    t.pc.toNat = if 4095 ≤ s.pc.toNat then s.pc.toNat else (s.nextOp.bind s.pcTarget).getD (s.pc.toNat + 2)

/-- The codes 0 to 6 of the results, and for each of them exactly when a step answers it (R180 to R186; the codes are
decision D20, the fault kinds 4, 5 and 6 are D5, D6 and D3, I unmasked D13, coordinates not reduced D25, invalid words of
families 5 and 9 D21, all log entry 8; that the result is a field is log entry 1). -/
def Obligations.ResultCodesTellWhatWasRaised : Prop :=
  (Result.ok.code = 0 ∧ ∀ (a n x y h : Nat) (w : Word),
    [Fault.memoryOutOfBounds a n, .invalidOpCode w, .invalidReturn, .unsupportedOperation w, .displayOutOfBounds x y h,
      .stackOverflow w].map (fun f => (Result.raised f).code) = [1, 2, 3, 4, 5, 6]) ∧
  ∀ s t : State, step s = .next t →
    t.result.code ≤ 6 ∧
    (t.result.code = 1 ↔ 4095 ≤ s.pc.toNat ∨
      (∃ rx ry n, s.nextOp = some (.draw rx ry n) ∧ 1 ≤ n.toNat ∧ 4096 < s.I.toNat + n.toNat) ∨
      (∃ rx, s.nextOp = some (.storeBCD rx) ∧ 4095 < s.I.toNat + 2) ∨
      ∃ rx, (s.nextOp = some (.dumpRegisters rx) ∨ s.nextOp = some (.loadRegisters rx)) ∧ 4095 < s.I.toNat + rx.toNat) ∧
    (t.result.code = 2 ↔ ∃ w, s.fetch = .ok w ∧ decode w = .invalid w) ∧
    (t.result.code = 3 ↔ s.nextOp = some .ret ∧ s.stack = []) ∧
    (t.result.code = 4 ↔ ∃ i, s.nextOp = some i ∧ isUnsupported i) ∧
    (t.result.code = 5 ↔ ∃ rx ry n, s.nextOp = some (.draw rx ry n) ∧ 1 ≤ n.toNat ∧ s.I.toNat + n.toNat ≤ 4096 ∧
      ((s.reg rx).toNat > 56 ∨ (s.reg ry).toNat + n.toNat > 32)) ∧
    (t.result.code = 6 ↔ ∃ nnn d, s.nextOp = some (.callSubroutine nnn) ∧ s.stackDepth = some d ∧ d ≤ s.stack.length)
end

