-- ==== Sys2Proof/Laws/Exec.lean ====
section
/-! SUPPORT. Everything the execute phase can do, said once: `exec_effect` is the inversion lemma of `exec`, and each rule about
what a step may change is a case analysis on it. -/

namespace Sys2Proof.Machine

/-- The four skips (R100). -/
def isSkip (i : Instr) : Prop :=
  (∃ rx kk, i = .skipIfRegEqConst rx kk) ∨ (∃ rx kk, i = .skipIfRegNeqConst rx kk) ∨
    (∃ rx ry, i = .skipIfRegEqReg rx ry) ∨ ∃ rx ry, i = .skipIfRegNeqReg rx ry

/-- The ways an instruction can end: the state it leaves, and which instruction it then was. -/
inductive Effect (i : Instr) (s : State) : State → Prop where
  /-- A fault, raised before any write (R188). -/
  | raises (f : Fault) : Effect i s (s.raise f)
  /-- A flag and a result (R130). -/
  | flagged (rx : RegIx) (b : Bool) (v : Byte) (h : regWrites i rx) (hf : regWrites i vf) : Effect i s (s.writeFlagged rx b v)
  /-- One register. -/
  | register (rx : RegIx) (v : Byte) (h : regWrites i rx) : Effect i s (s.setReg rx v)
  /-- One register and one request to the Random Source (R113). -/
  | random (rx : RegIx) (kk v : Byte) (h : i = .setRegRandomMasked rx kk) : Effect i s (s.randByte.2.setReg rx v)
  /-- The address register (R15). -/
  | addr (v : Word) (h : (∃ nnn, i = .setAddrRegConst nnn) ∨ ∃ rx, i = .addAddressRegister rx) : Effect i s (s.setAddr v)
  | delay (rx : RegIx) (v : Byte) (h : i = .setDelayTimer rx) : Effect i s (s.setDT v)
  | sound (rx : RegIx) (v : Byte) (h : i = .setSoundTimer rx) : Effect i s (s.setST v)
  | jumps (nnn : Addr12) (h : i = .jump nnn) : Effect i s (s.setPc (addrOfConst nnn))
  | jumpsPlus (nnn : Addr12) (h : i = .jumpPlusOffset nnn) : Effect i s (s.setPc (addrPlus nnn (s.reg 0x0#4)))
  /-- A skip whose condition does not hold. -/
  | stays (h : isSkip i) : Effect i s s
  /-- A skip whose condition holds. -/
  | skips (h : isSkip i) : Effect i s s.advance
  | calls (nnn : Addr12) (h : i = .callSubroutine nnn) (hs : s.stackFull = false) :
    Effect i s ((s.push s.pc).setPc (addrOfConst nnn))
  | returns (v : Word) (rest : List Word) (h : i = .ret) (hs : s.stack = v :: rest) :
    Effect i s { s with stack := rest, pc := v }
  | clears (h : i = .clearDisplay) : Effect i s { s with FB := Display.clear }
  | draws (rx ry : RegIx) (n : Nibble) (x y : Nat) (rows : List Byte) (h : i = .draw rx ry n) :
    Effect i s (s.composite x y rows)
  | storesDigits (rx : RegIx) (bs : List Byte) (h : i = .storeBCD rx) (hl : bs.length = 3) (hr : s.base + 3 ≤ 4096) :
    Effect i s { s with mem := s.mem.writeBytes s.base bs }
  | dumps (rx : RegIx) (bs : List Byte) (h : i = .dumpRegisters rx) (hl : bs.length = rx.toNat + 1)
    (hr : s.base + (rx.toNat + 1) ≤ 4096) : Effect i s { s with mem := s.mem.writeBytes s.base bs }
  | loads (rx : RegIx) (bs : List Byte) (h : i = .loadRegisters rx) (hl : bs.length = rx.toNat + 1) :
    Effect i s (s.loadRegs bs)

theorem skipIf_effect {i : Instr} {s t : State} {c : Bool} (hi : isSkip i) (h : skipIf c s = .next t) : Effect i s t := by
  unfold skipIf at h
  cases h
  split
  · exact .skips hi
  · exact .stays hi

/-- Whatever `exec` answers as a next state is one of the effects. -/
theorem exec_effect {i : Instr} {s t : State} (h : exec i s = .next t) : Effect i s t := by
  cases i
  case ret =>
    simp only [exec, execRet] at h
    cases hs : s.stack with
    | nil => rw [pop_nil hs] at h; cases h; exact .raises _
    | cons v rest => rw [pop_cons hs] at h; cases h; exact .returns v rest rfl hs
  case callSubroutine nnn =>
    simp only [exec, execCallSubroutine] at h
    split at h
    · cases h; exact .raises _
    · next hf => cases h; exact .calls nnn rfl (by simpa using hf)
  case draw rx ry n =>
    simp only [exec, execDraw] at h
    split at h
    · cases h; exact .raises _
    · split at h
      · cases h; exact .raises _
      · cases h; exact .draws rx ry n _ _ _ rfl
  case storeBCD rx =>
    rcases storeAtBase_cases (bcdDigits (s.reg rx)) s with ⟨hb, h'⟩ | ⟨_, h'⟩ <;>
      rw [show exec (.storeBCD rx) s = storeAtBase _ s from rfl, h'] at h <;> cases h
    · exact .storesDigits rx _ rfl rfl (by simpa using hb)
    · exact .raises _
  case dumpRegisters rx =>
    rcases storeAtBase_cases (s.regsUpTo rx) s with ⟨hb, h'⟩ | ⟨_, h'⟩ <;>
      rw [show exec (.dumpRegisters rx) s = storeAtBase _ s from rfl, h'] at h <;> cases h
    · exact .dumps rx _ rfl (by simp) (by simpa using hb)
    · exact .raises _
  case loadRegisters rx =>
    simp only [exec, execLoadRegisters] at h
    by_cases hr : rx.toNat + 1 = 0 ∨ s.base + (rx.toNat + 1) ≤ 4096
    · rw [memRead_ok s hr] at h; cases h; exact .loads rx _ rfl (by simp)
    · rw [memRead_error s hr] at h; cases h; exact .raises _
  case skipIfRegEqConst rx kk => exact skipIf_effect (.inl ⟨rx, kk, rfl⟩) h
  case skipIfRegNeqConst rx kk => exact skipIf_effect (.inr (.inl ⟨rx, kk, rfl⟩)) h
  case skipIfRegEqReg rx ry => exact skipIf_effect (.inr (.inr (.inl ⟨rx, ry, rfl⟩))) h
  case skipIfRegNeqReg rx ry => exact skipIf_effect (.inr (.inr (.inr ⟨rx, ry, rfl⟩))) h
  case addReg | subReg | shiftRight | reverseSubReg | shiftLeft => cases h; exact .flagged _ _ _ (.inl rfl) (.inr rfl)
  case setRegConst | addRegConst | copyReg | orReg | andReg | xorReg | getDelayTimer => cases h; exact .register _ _ rfl
  case callMachineCode | keyPressed | keyNotPressed | waitKey | spriteAddressRegister => cases h; exact .raises _
  case setRegRandomMasked rx kk => cases h; exact .random rx kk _ rfl
  case setAddrRegConst nnn => cases h; exact .addr _ (.inl ⟨nnn, rfl⟩)
  case addAddressRegister rx => cases h; exact .addr _ (.inr ⟨rx, rfl⟩)
  case setDelayTimer rx => cases h; exact .delay rx _ rfl
  case setSoundTimer rx => cases h; exact .sound rx _ rfl
  case jump nnn => cases h; exact .jumps nnn rfl
  case jumpPlusOffset nnn => cases h; exact .jumpsPlus nnn rfl
  case clearDisplay => cases h; exact .clears rfl

end Sys2Proof.Machine
end

