-- ==== Sys2Proof/Laws/HostOps.lean ====
section
/-! SUPPORT. Everything a HostWrite and a Reset can do, said once (70_reset_and_hazards.md rules R210, R212, R214). -/

namespace Sys2Proof.Machine

theorem hostWrite_ok (s : State) {offset : Nat} {bytes : List Byte} (h : offset + bytes.length ≤ 4096) :
    s.hostWrite offset bytes = ({ s with mem := s.mem.writeBytes offset bytes }, true) :=
  if_neg (Nat.not_lt.2 h)

theorem hostWrite_error (s : State) {offset : Nat} {bytes : List Byte} (h : 4096 < offset + bytes.length) :
    s.hostWrite offset bytes = (s, false) :=
  if_pos h

theorem imageAdmitted_iff (p : Word) (image : List Byte) :
    imageAdmitted p image = true ↔ (p.toNat = 4095 → image.length = 1 → Config.loadsAtLastAddress = true) := by
  unfold imageAdmitted
  split <;> simp_all

/-- A Reset has no image to load, or loads one that fits, or reports that it does not fit and loads nothing. -/
theorem launch_cases (c : ResetConfig) :
    (c.program = none ∧ State.launch c = (State.cleared c, true)) ∨
      ∃ image, c.program = some image ∧
        ((c.initialPc.toNat + image.length ≤ 4096 ∧ imageAdmitted c.initialPc image = true ∧
            State.launch c =
              ({ State.cleared c with mem := (State.cleared c).mem.writeBytes c.initialPc.toNat image }, true)) ∨
          (¬ (c.initialPc.toNat + image.length ≤ 4096 ∧ imageAdmitted c.initialPc image = true) ∧
            State.launch c = (State.cleared c, false))) := by
  cases hp : c.program with
  | none => exact .inl ⟨rfl, by simp only [State.launch, hp]⟩
  | some image =>
    refine .inr ⟨image, rfl, ?_⟩
    cases ha : imageAdmitted c.initialPc image
    · exact .inr ⟨by simp, by simp [State.launch, hp, ha]⟩
    · by_cases hf : c.initialPc.toNat + image.length ≤ 4096
      · exact .inl ⟨hf, rfl, by simp [State.launch, hp, ha, hostWrite_ok _ hf]⟩
      · exact .inr ⟨by simp [hf], by simp [State.launch, hp, ha, hostWrite_error _ (Nat.lt_of_not_le hf)]⟩

end Sys2Proof.Machine
end

