-- ==== Sys2Proof/Laws/PerInstr.lean ====
section
/-! SUPPORT. Per-instruction facts about instructions as syntax. The family Encoding: the word of an instruction shows the
fixed bits of its row of the opcode map, `(w and mask) = match` (30_encoding.md rule R66). -/

namespace Sys2Proof.Laws.Encoding

/-- The column "mask" of R66. -/
def mask : Instr → Word
  | .ret | .clearDisplay => 0xFFFF#16
  | .callMachineCode _ | .jump _ | .callSubroutine _ | .skipIfRegEqConst _ _ | .skipIfRegNeqConst _ _
  | .setRegConst _ _ | .addRegConst _ _ | .setAddrRegConst _ | .jumpPlusOffset _ | .setRegRandomMasked _ _
  | .draw _ _ _ => 0xF000#16
  | .skipIfRegEqReg _ _ | .copyReg _ _ | .orReg _ _ | .andReg _ _ | .xorReg _ _ | .addReg _ _ | .subReg _ _
  | .shiftRight _ _ | .reverseSubReg _ _ | .shiftLeft _ _ | .skipIfRegNeqReg _ _ => 0xF00F#16
  | .keyPressed _ | .keyNotPressed _ | .getDelayTimer _ | .waitKey _ | .setDelayTimer _ | .setSoundTimer _
  | .addAddressRegister _ | .spriteAddressRegister _ | .storeBCD _ | .dumpRegisters _ | .loadRegisters _ => 0xF0FF#16

/-- The column "match" of R66. -/
def fixed : Instr → Word
  | .ret => 0x00EE#16
  | .clearDisplay => 0x00E0#16
  | .callMachineCode _ => 0x0000#16
  | .jump _ => 0x1000#16
  | .callSubroutine _ => 0x2000#16
  | .skipIfRegEqConst _ _ => 0x3000#16
  | .skipIfRegNeqConst _ _ => 0x4000#16
  | .skipIfRegEqReg _ _ => 0x5000#16
  | .setRegConst _ _ => 0x6000#16
  | .addRegConst _ _ => 0x7000#16
  | .copyReg _ _ => 0x8000#16
  | .orReg _ _ => 0x8001#16
  | .andReg _ _ => 0x8002#16
  | .xorReg _ _ => 0x8003#16
  | .addReg _ _ => 0x8004#16
  | .subReg _ _ => 0x8005#16
  | .shiftRight _ _ => 0x8006#16
  | .reverseSubReg _ _ => 0x8007#16
  | .shiftLeft _ _ => 0x800E#16
  | .skipIfRegNeqReg _ _ => 0x9000#16
  | .setAddrRegConst _ => 0xA000#16
  | .jumpPlusOffset _ => 0xB000#16
  | .setRegRandomMasked _ _ => 0xC000#16
  | .draw _ _ _ => 0xD000#16
  | .keyPressed _ => 0xE09E#16
  | .keyNotPressed _ => 0xE0A1#16
  | .getDelayTimer _ => 0xF007#16
  | .waitKey _ => 0xF00A#16
  | .setDelayTimer _ => 0xF015#16
  | .setSoundTimer _ => 0xF018#16
  | .addAddressRegister _ => 0xF01E#16
  | .spriteAddressRegister _ => 0xF029#16
  | .storeBCD _ => 0xF033#16
  | .dumpRegisters _ => 0xF055#16
  | .loadRegisters _ => 0xF065#16

/-- The encoded word matches the instruction's row. -/
def Statement (i : Instr) : Prop := encode i &&& mask i = fixed i

/-- A word of format A under the mask of its family. -/
theorem formA (f : Nibble) (nnn : Addr12) : wordA f nnn &&& 0xF000#16 = wordA f 0x000#12 := by
  apply BitVec.eq_of_getLsbD_eq
  intro k hk
  have hm : (0xF000#16).getLsbD k = decide (12 ≤ k) := by interval_cases k <;> rfl
  rw [BitVec.getLsbD_and, wordA_getLsbD, wordA_getLsbD, hm]
  split
  · next h => simp [Nat.not_le.2 h]
  · next h => simp [Nat.not_lt.1 h]

/-- A word of format XK under the mask of its family. -/
theorem formXK (f : Nibble) (rx : RegIx) (kk : Byte) : wordXK f rx kk &&& 0xF000#16 = wordA f 0x000#12 := by
  rw [← wordA_fields (wordXK f rx kk), fieldN0_wordXK, formA]

/-- A word of format XYN under the mask of its family. -/
theorem formXYN (f : Nibble) (rx ry : RegIx) (n : Nibble) : wordXY f rx ry n &&& 0xF000#16 = wordA f 0x000#12 := by
  rw [← wordA_fields (wordXY f rx ry n), fieldN0_wordXY, formA]

/-- A word of format XY under the mask of its family and selector. -/
theorem formXY (f : Nibble) (rx ry : RegIx) (n : Nibble) :
    wordXY f rx ry n &&& 0xF00F#16 = wordXY f 0x0#4 0x0#4 n := by
  apply BitVec.eq_of_getLsbD_eq
  intro k hk
  have hm : (0xF00F#16).getLsbD k = (decide (12 ≤ k) || decide (k < 4)) := by interval_cases k <;> rfl
  rw [BitVec.getLsbD_and, wordXY_getLsbD, wordXY_getLsbD, hm]
  by_cases h4 : k < 4
  · simp [h4]
  · by_cases h12 : k < 12
    · simp [h4, h12]
    · simp [h4, h12, show ¬ k < 8 by omega, Nat.not_lt.1 h12]

/-- A word of format X under the mask of its family and selector byte. -/
theorem formX (f : Nibble) (rx : RegIx) (kk : Byte) : wordXK f rx kk &&& 0xF0FF#16 = wordXK f 0x0#4 kk := by
  apply BitVec.eq_of_getLsbD_eq
  intro k hk
  have hm : (0xF0FF#16).getLsbD k = (decide (12 ≤ k) || decide (k < 8)) := by interval_cases k <;> rfl
  rw [BitVec.getLsbD_and, wordXK_getLsbD, wordXK_getLsbD, hm]
  by_cases h8 : k < 8
  · simp [h8]
  · by_cases h12 : k < 12
    · simp [h8, h12]
    · simp [h8, h12, Nat.not_lt.1 h12]

theorem ret : Statement .ret := by unfold Statement; decide

theorem clearDisplay : Statement .clearDisplay := by unfold Statement; decide

theorem callMachineCode (nnn : Addr12) : Statement (.callMachineCode nnn) := formA _ _

theorem jump (nnn : Addr12) : Statement (.jump nnn) := formA _ _

theorem callSubroutine (nnn : Addr12) : Statement (.callSubroutine nnn) := formA _ _

theorem skipIfRegEqConst (rx : RegIx) (kk : Byte) : Statement (.skipIfRegEqConst rx kk) := formXK _ _ _

theorem skipIfRegNeqConst (rx : RegIx) (kk : Byte) : Statement (.skipIfRegNeqConst rx kk) := formXK _ _ _

theorem skipIfRegEqReg (rx ry : RegIx) : Statement (.skipIfRegEqReg rx ry) := formXY _ _ _ _

theorem setRegConst (rx : RegIx) (kk : Byte) : Statement (.setRegConst rx kk) := formXK _ _ _

theorem addRegConst (rx : RegIx) (kk : Byte) : Statement (.addRegConst rx kk) := formXK _ _ _

theorem copyReg (rx ry : RegIx) : Statement (.copyReg rx ry) := formXY _ _ _ _

theorem orReg (rx ry : RegIx) : Statement (.orReg rx ry) := formXY _ _ _ _

theorem andReg (rx ry : RegIx) : Statement (.andReg rx ry) := formXY _ _ _ _

theorem xorReg (rx ry : RegIx) : Statement (.xorReg rx ry) := formXY _ _ _ _

theorem addReg (rx ry : RegIx) : Statement (.addReg rx ry) := formXY _ _ _ _

theorem subReg (rx ry : RegIx) : Statement (.subReg rx ry) := formXY _ _ _ _

theorem shiftRight (rx ry : RegIx) : Statement (.shiftRight rx ry) := formXY _ _ _ _

theorem reverseSubReg (rx ry : RegIx) : Statement (.reverseSubReg rx ry) := formXY _ _ _ _

theorem shiftLeft (rx ry : RegIx) : Statement (.shiftLeft rx ry) := formXY _ _ _ _

theorem skipIfRegNeqReg (rx ry : RegIx) : Statement (.skipIfRegNeqReg rx ry) := formXY _ _ _ _

theorem setAddrRegConst (nnn : Addr12) : Statement (.setAddrRegConst nnn) := formA _ _

theorem jumpPlusOffset (nnn : Addr12) : Statement (.jumpPlusOffset nnn) := formA _ _

theorem setRegRandomMasked (rx : RegIx) (kk : Byte) : Statement (.setRegRandomMasked rx kk) := formXK _ _ _

theorem draw (rx ry : RegIx) (n : Nibble) : Statement (.draw rx ry n) := formXYN _ _ _ _

theorem keyPressed (rx : RegIx) : Statement (.keyPressed rx) := formX _ _ _

theorem keyNotPressed (rx : RegIx) : Statement (.keyNotPressed rx) := formX _ _ _

theorem getDelayTimer (rx : RegIx) : Statement (.getDelayTimer rx) := formX _ _ _

theorem waitKey (rx : RegIx) : Statement (.waitKey rx) := formX _ _ _

theorem setDelayTimer (rx : RegIx) : Statement (.setDelayTimer rx) := formX _ _ _

theorem setSoundTimer (rx : RegIx) : Statement (.setSoundTimer rx) := formX _ _ _

theorem addAddressRegister (rx : RegIx) : Statement (.addAddressRegister rx) := formX _ _ _

theorem spriteAddressRegister (rx : RegIx) : Statement (.spriteAddressRegister rx) := formX _ _ _

theorem storeBCD (rx : RegIx) : Statement (.storeBCD rx) := formX _ _ _

theorem dumpRegisters (rx : RegIx) : Statement (.dumpRegisters rx) := formX _ _ _

theorem loadRegisters (rx : RegIx) : Statement (.loadRegisters rx) := formX _ _ _

end Sys2Proof.Laws.Encoding
end

