-- ==== Sys2Proof/Machine/Text.lean ====
section
/-! DEFINITION. The textual form of an instruction (30_encoding.md rule R76): the mnemonic of R66, then the operands in the
order of its operands column, registers as `V0`..`VF`, constants in hexadecimal. It has no part in a step. -/

namespace Sys2Proof

/-- One hexadecimal digit, capital as in R76. -/
def hexDigit (d : Nat) : Char := "0123456789ABCDEF".toList.getD (d % 16) '0'

/-- A number below 16 to the `k`, in `k` hexadecimal digits. -/
def hexDigits : Nat → Nat → List Char
  | 0, _ => []
  | k + 1, v => hexDigits k (v / 16) ++ [hexDigit v]

/-- A register, `V0`..`VF`. -/
def textReg (r : RegIx) : String := String.ofList ('V' :: hexDigits 1 r.toNat)

/-- An 8-bit constant, as in `AddRegConst V3, 0xFF`; always two digits (DESIGN CHOICE, log entry 9). -/
def textByte (kk : Byte) : String := String.ofList ('0' :: 'x' :: hexDigits 2 kk.toNat)

/-- A 12-bit constant, as in `Jump 0x204`; always three digits (DESIGN CHOICE, log entry 9). -/
def textAddr (nnn : Addr12) : String := String.ofList ('0' :: 'x' :: hexDigits 3 nnn.toNat)

/-- The height of a Draw, one hexadecimal digit as in `Draw V1, V2, 1` (DESIGN CHOICE, log entry 9). -/
def textHeight (n : Nibble) : String := String.ofList (hexDigits 1 n.toNat)

/-- A mnemonic and its operands. -/
def textOf (mnemonic : String) : List String → String
  | [] => mnemonic
  | a :: rest => rest.foldl (fun t b => t ++ ", " ++ b) (mnemonic ++ " " ++ a)

/-- The textual form (R76). -/
def Instr.text : Instr → String
  | .ret => textOf "Return" []
  | .clearDisplay => textOf "ClearDisplay" []
  | .callMachineCode nnn => textOf "CallMachineCode" [textAddr nnn]
  | .jump nnn => textOf "Jump" [textAddr nnn]
  | .callSubroutine nnn => textOf "CallSubroutine" [textAddr nnn]
  | .skipIfRegEqConst rx kk => textOf "SkipIfRegEqConst" [textReg rx, textByte kk]
  | .skipIfRegNeqConst rx kk => textOf "SkipIfRegNeqConst" [textReg rx, textByte kk]
  | .skipIfRegEqReg rx ry => textOf "SkipIfRegEqReg" [textReg rx, textReg ry]
  | .setRegConst rx kk => textOf "SetRegConst" [textReg rx, textByte kk]
  | .addRegConst rx kk => textOf "AddRegConst" [textReg rx, textByte kk]
  | .copyReg rx ry => textOf "CopyReg" [textReg rx, textReg ry]
  | .orReg rx ry => textOf "OrReg" [textReg rx, textReg ry]
  | .andReg rx ry => textOf "AndReg" [textReg rx, textReg ry]
  | .xorReg rx ry => textOf "XorReg" [textReg rx, textReg ry]
  | .addReg rx ry => textOf "AddReg" [textReg rx, textReg ry]
  | .subReg rx ry => textOf "SubReg" [textReg rx, textReg ry]
  | .shiftRight rx ry => textOf "ShiftRight" [textReg rx, textReg ry]
  | .reverseSubReg rx ry => textOf "ReverseSubReg" [textReg rx, textReg ry]
  | .shiftLeft rx ry => textOf "ShiftLeft" [textReg rx, textReg ry]
  | .skipIfRegNeqReg rx ry => textOf "SkipIfRegNeqReg" [textReg rx, textReg ry]
  | .setAddrRegConst nnn => textOf "SetAddrRegConst" [textAddr nnn]
  | .jumpPlusOffset nnn => textOf "JumpPlusOffset" [textAddr nnn]
  | .setRegRandomMasked rx kk => textOf "SetRegRandomMasked" [textReg rx, textByte kk]
  | .draw rx ry n => textOf "Draw" [textReg rx, textReg ry, textHeight n]
  | .keyPressed rx => textOf "KeyPressed" [textReg rx]
  | .keyNotPressed rx => textOf "KeyNotPressed" [textReg rx]
  | .getDelayTimer rx => textOf "GetDelayTimer" [textReg rx]
  | .waitKey rx => textOf "WaitKey" [textReg rx]
  | .setDelayTimer rx => textOf "SetDelayTimer" [textReg rx]
  | .setSoundTimer rx => textOf "SetSoundTimer" [textReg rx]
  | .addAddressRegister rx => textOf "AddAddressRegister" [textReg rx]
  | .spriteAddressRegister rx => textOf "SpriteAddressRegister" [textReg rx]
  | .storeBCD rx => textOf "StoreBCD" [textReg rx]
  | .dumpRegisters rx => textOf "DumpRegisters" [textReg rx]
  | .loadRegisters rx => textOf "LoadRegisters" [textReg rx]

end Sys2Proof
end

