-- ==== Sys2Proof/Tests/Slice0.lean ====
section
/-! SUPPORT. The model's own tests. Expected results come from spec/95_test_vectors.md (E, T, H, F vectors, named in each
comment) or by hand from the rule named; and for every statement with hypotheses, a state and operands that meet them. -/

namespace Sys2Proof.Tests

set_option Elab.async false

open Sys2Proof.Machine

/-! Helpers -/

/-- The reset state with `w` where the next step fetches. -/
def at200 (w : Word) : State := State.reset.withFetchWord 16 w.toNat

/-- `s` with `w` where the next step fetches. -/
def holding (s : State) (w : Word) : State := s.withFetchWord 16 w.toNat

/-- The state after one step. -/
def ran (s : State) : State :=
  match step s with
  | .next t => t
  | .fault _ => s
  | .refused _ => s

/-- The reset state with registers V1 and V2 and VF set. -/
def regs (v1 v2 f : Byte) : State := ((State.reset.setReg 0x1#4 v1).setReg 0x2#4 v2).setReg 0xF#4 f

/-- `s` with I = `a` and the bytes `bs` at `a`. -/
def atI (s : State) (a : Word) (bs : List Byte) : State := { s with I := a, mem := s.mem.writeBytes a.toNat bs }

/-! WellFormed: the one check, and the ill-formed terms it refuses (R65, R67) -/

theorem test_wf_refuses_00E0 : (Instr.callMachineCode 0x0E0#12).wf = false := by decide
theorem test_wf_refuses_00EE : (Instr.callMachineCode 0x0EE#12).wf = false := by decide
theorem test_wf_accepts_00E1 : (Instr.callMachineCode 0x0E1#12).wf = true := by decide

/-! Decoding: every constructor, by a word written out from R66 (vectors E1 to E24) -/

theorem test_decode_family0 : decode 0b0000000011101110#16 = .op .ret ∧ decode 0b0000000011100000#16 = .op .clearDisplay ∧
    decode 0b0000000011100001#16 = .op (.callMachineCode 0x0E1#12) := by decide
theorem test_decode_flow : decode 0b0001101010111100#16 = .op (.jump 0xABC#12) ∧
    decode 0b0010101010111100#16 = .op (.callSubroutine 0xABC#12) ∧
    decode 0b1011101010111100#16 = .op (.jumpPlusOffset 0xABC#12) := by decide
theorem test_decode_skip : decode 0b0011101001111111#16 = .op (.skipIfRegEqConst 0xA#4 0x7F#8) ∧
    decode 0b0100101001111111#16 = .op (.skipIfRegNeqConst 0xA#4 0x7F#8) ∧
    decode 0b0101101010110000#16 = .op (.skipIfRegEqReg 0xA#4 0xB#4) ∧
    decode 0b1001101010110000#16 = .op (.skipIfRegNeqReg 0xA#4 0xB#4) := by decide
theorem test_decode_const : decode 0b0110101001111111#16 = .op (.setRegConst 0xA#4 0x7F#8) ∧
    decode 0b0111001111111111#16 = .op (.addRegConst 0x3#4 0xFF#8) ∧
    decode 0b1010111110100000#16 = .op (.setAddrRegConst 0xFA0#12) ∧
    decode 0b1100101001111111#16 = .op (.setRegRandomMasked 0xA#4 0x7F#8) := by decide
theorem test_decode_alu_logic : decode 0b1000101010110000#16 = .op (.copyReg 0xA#4 0xB#4) ∧
    decode 0b1000101010110001#16 = .op (.orReg 0xA#4 0xB#4) ∧ decode 0b1000101010110010#16 = .op (.andReg 0xA#4 0xB#4) ∧
    decode 0b1000101010110011#16 = .op (.xorReg 0xA#4 0xB#4) := by decide
theorem test_decode_alu_arith : decode 0b1000101010110100#16 = .op (.addReg 0xA#4 0xB#4) ∧
    decode 0b1000101010110101#16 = .op (.subReg 0xA#4 0xB#4) ∧ decode 0b1000101010110110#16 = .op (.shiftRight 0xA#4 0xB#4) ∧
    decode 0b1000101010110111#16 = .op (.reverseSubReg 0xA#4 0xB#4) ∧
    decode 0b1000101010111110#16 = .op (.shiftLeft 0xA#4 0xB#4) := by decide
theorem test_decode_display : decode 0b1101000100100001#16 = .op (.draw 0x1#4 0x2#4 0x1#4) := by decide
theorem test_decode_keys : decode 0b1110101010011110#16 = .op (.keyPressed 0xA#4) ∧
    decode 0b1110101010100001#16 = .op (.keyNotPressed 0xA#4) ∧ decode 0b1111101000001010#16 = .op (.waitKey 0xA#4) := by decide
theorem test_decode_timers : decode 0b1111101000000111#16 = .op (.getDelayTimer 0xA#4) ∧
    decode 0b1111101000010101#16 = .op (.setDelayTimer 0xA#4) ∧
    decode 0b1111101000011000#16 = .op (.setSoundTimer 0xA#4) := by decide
theorem test_decode_misc : decode 0b1111101000011110#16 = .op (.addAddressRegister 0xA#4) ∧
    decode 0b1111101000101001#16 = .op (.spriteAddressRegister 0xA#4) ∧ decode 0b1111101000110011#16 = .op (.storeBCD 0xA#4) ∧
    decode 0b1111101001010101#16 = .op (.dumpRegisters 0xA#4) ∧
    decode 0b1111101001100101#16 = .op (.loadRegisters 0xA#4) := by decide
/-- E10, E14, E17, E23, E25. -/
theorem test_decode_invalid :
    [0x5AB1#16, 0x5ABF#16, 0x8AB8#16, 0x8ABD#16, 0x8ABF#16, 0x9AB1#16].map decode =
      [0x5AB1#16, 0x5ABF#16, 0x8AB8#16, 0x8ABD#16, 0x8ABF#16, 0x9AB1#16].map .invalid ∧
    [0xEA9F#16, 0xEA00#16, 0xFA00#16, 0xFA08#16, 0xFA56#16, 0xFAFF#16].map decode =
      [0xEA9F#16, 0xEA00#16, 0xFA00#16, 0xFA08#16, 0xFA56#16, 0xFAFF#16].map .invalid := by decide
theorem test_decodeBytes_refuses_one_byte : decodeBytes [0x60#8] = .error (.tooShort 1) := by rfl
theorem test_decodeBytes_reads_two : decodeBytes [0x60#8, 0x01#8, 0xAA#8] = .ok (.setRegConst 0x0#4 0x01#8, [0xAA#8]) := by rfl
theorem test_decodeTableWord : decodeTableWord 16 0xD121 = some (.draw 0x1#4 0x2#4 0x1#4) := by decide
theorem test_encodeBytes : encodeBytes (.addRegConst 0x3#4 0xFF#8) = [0x73#8, 0xFF#8] := by decide

/-- The five examples of R76. -/
theorem test_text : (Instr.addRegConst 0x3#4 0xFF#8).text = "AddRegConst V3, 0xFF" ∧ (Instr.jump 0x204#12).text = "Jump 0x204" ∧
    (Instr.draw 0x1#4 0x2#4 0x1#4).text = "Draw V1, V2, 1" ∧ (Instr.dumpRegisters 0xF#4).text = "DumpRegisters VF" ∧
    Instr.ret.text = "Return" := by decide

/-! The step -/

/-- F2, second step: an invalid word faults after the advance. -/
theorem test_step_invalid : (ran (at200 0x5121#16)).result = .raised (.invalidOpCode 0x5121#16) ∧
    (ran (at200 0x5121#16)).pc = 0x0202#16 := by decide +kernel
/-- F3: a fetch fault leaves pc, and repeats. -/
theorem test_step_fetch_fault : (ran (ran { State.reset with pc := 0x0FFF#16 })).result = .raised (.memoryOutOfBounds 0x0FFF 2) ∧
    (ran (ran { State.reset with pc := 0x0FFF#16 })).pc = 0x0FFF#16 := by decide +kernel
/-- F9: the last fetch that fits. -/
theorem test_step_last_word : (ran (holding { State.reset with pc := 0x0FFE#16 } 0x6001#16)).pc = 0x1000#16 := by decide +kernel
/-- F8: after a fault the engine steps on, and the first fault stays on record. -/
theorem test_step_after_fault :
    let s := ran (holding (ran (at200 0xF00A#16)) 0x6105#16)
    s.reg 0x1#4 = 0x05#8 ∧ s.result = .ok ∧ s.firstFault = some (.unsupportedOperation 0xF00A#16) := by decide +kernel

/-! Control transfer -/

/-- T2. -/
theorem test_ret : (ran (holding { State.reset with stack := [0x0FFF#16, 0x0204#16] } 0x00EE#16)).pc = 0x0FFF#16 := by decide +kernel
/-- T3. -/
theorem test_ret_empty : (ran (at200 0x00EE#16)).result = .raised .invalidReturn := by decide +kernel
/-- T5. -/
theorem test_callMachineCode : (ran (at200 0x00E1#16)).result = .raised (.unsupportedOperation 0x00E1#16) := by decide +kernel
/-- T9. -/
theorem test_jump : (ran (at200 0x1201#16)).pc = 0x0201#16 := by decide +kernel
/-- T10. -/
theorem test_call : (ran (at200 0x2300#16)).pc = 0x0300#16 ∧ (ran (at200 0x2300#16)).stack = [0x0202#16] := by decide +kernel
/-- T12. -/
theorem test_call_full :
    (ran (holding { State.reset with stack := [0x0208#16, 0x0206#16], stackDepth := some 2 } 0x2300#16)).result =
      .raised (.stackOverflow 0x2300#16) := by decide +kernel
/-- T14. -/
theorem test_jumpPlusOffset : (ran (holding (State.reset.setReg 0x0#4 0xFF#8) 0xBFFF#16)).pc = 0x10FE#16 := by decide +kernel

/-! Skips -/

/-- T20, T21. -/
theorem test_skipIfRegEqConst : (ran (holding (regs 0x00#8 0x10#8 0x00#8) 0x3210#16)).pc = 0x0204#16 ∧
    (ran (holding (regs 0x00#8 0x11#8 0x00#8) 0x3210#16)).pc = 0x0202#16 := by decide +kernel
/-- T22, T23. -/
theorem test_skipIfRegNeqConst : (ran (holding (regs 0x00#8 0x10#8 0x00#8) 0x4210#16)).pc = 0x0202#16 ∧
    (ran (holding (regs 0x00#8 0x11#8 0x00#8) 0x4210#16)).pc = 0x0204#16 := by decide +kernel
/-- T24, T25. -/
theorem test_skipIfRegEqReg : (ran (holding (regs 0x07#8 0x07#8 0x00#8) 0x5120#16)).pc = 0x0204#16 ∧
    (ran (holding (regs 0x07#8 0x08#8 0x00#8) 0x5120#16)).pc = 0x0202#16 := by decide +kernel
/-- T27, T28. -/
theorem test_skipIfRegNeqReg : (ran (holding (regs 0x07#8 0x08#8 0x00#8) 0x9120#16)).pc = 0x0204#16 ∧
    (ran (holding (regs 0x07#8 0x07#8 0x00#8) 0x9120#16)).pc = 0x0202#16 := by decide +kernel

/-! Constant loads -/

/-- T40. -/
theorem test_setRegConst : (ran (at200 0x6A2B#16)).reg 0xA#4 = 0x2B#8 := by decide +kernel
/-- T45: wraps, VF untouched. -/
theorem test_addRegConst :
    let s := ran (holding ((State.reset.setReg 0x0#4 0x80#8).setReg 0xF#4 0x01#8) 0x7080#16)
    s.reg 0x0#4 = 0x00#8 ∧ s.reg 0xF#4 = 0x01#8 := by decide +kernel
/-- T48. -/
theorem test_setAddrRegConst : (ran (holding { State.reset with I := 0xFFFF#16 } 0xAFA0#16)).I = 0x0FA0#16 := by decide +kernel
/-- T51: the request is made also for the mask 0. -/
theorem test_random_requests : (ran (at200 0xC300#16)).rand.requests = 1 := by decide +kernel

/-! ALU -/

/-- V1, V2 and VF after one step of `w` on the given V1, V2, VF. -/
def alu (w : Word) (v1 v2 f : Byte) : List Byte :=
  let t := ran (holding (regs v1 v2 f) w)
  [t.reg 0x1#4, t.reg 0x2#4, t.reg 0xF#4]

/-- T60. -/
theorem test_copyReg : alu 0x8120#16 0x00#8 0x5A#8 0x00#8 = [0x5A#8, 0x5A#8, 0x00#8] := by decide +kernel
/-- T61. -/
theorem test_orReg : alu 0x8121#16 0xF0#8 0x0F#8 0x01#8 = [0xFF#8, 0x0F#8, 0x01#8] := by decide +kernel
/-- T62. -/
theorem test_andReg : alu 0x8122#16 0xF0#8 0x3C#8 0x01#8 = [0x30#8, 0x3C#8, 0x01#8] := by decide +kernel
/-- T63. -/
theorem test_xorReg : alu 0x8123#16 0xF0#8 0x3C#8 0x01#8 = [0xCC#8, 0x3C#8, 0x01#8] := by decide +kernel
/-- T65; and T69, where the old VF is the operand. -/
theorem test_addReg : alu 0x8124#16 0xFF#8 0x01#8 0x00#8 = [0x00#8, 0x01#8, 0x01#8] ∧
    alu 0x81F4#16 0xFF#8 0x00#8 0x01#8 = [0x00#8, 0x00#8, 0x01#8] := by decide +kernel
/-- T70: VF as destination keeps the sum. -/
theorem test_addReg_vf : alu 0x8F24#16 0x00#8 0x20#8 0xF0#8 = [0x00#8, 0x20#8, 0x10#8] := by decide +kernel
/-- T72, T74. -/
theorem test_subReg : alu 0x8125#16 0x05#8 0x07#8 0x01#8 = [0xFE#8, 0x07#8, 0x00#8] ∧
    alu 0x8125#16 0x07#8 0x07#8 0x00#8 = [0x00#8, 0x07#8, 0x01#8] := by decide +kernel
/-- T80, T83. -/
theorem test_shiftRight : alu 0x8126#16 0x05#8 0xFE#8 0x00#8 = [0x02#8, 0xFE#8, 0x01#8] ∧
    alu 0x8106#16 0xFE#8 0x00#8 0x00#8 = [0x7F#8, 0x00#8, 0x00#8] := by decide +kernel
/-- T85, T87. -/
theorem test_reverseSubReg : alu 0x8127#16 0x07#8 0x05#8 0x01#8 = [0xFE#8, 0x05#8, 0x00#8] ∧
    alu 0x8117#16 0x33#8 0x00#8 0x00#8 = [0x00#8, 0x00#8, 0x01#8] := by decide +kernel
/-- T90, T93. -/
theorem test_shiftLeft : alu 0x810E#16 0x81#8 0x00#8 0x00#8 = [0x02#8, 0x00#8, 0x01#8] ∧
    alu 0x812E#16 0x40#8 0xFF#8 0x01#8 = [0x80#8, 0xFF#8, 0x00#8] := by decide +kernel

/-! Display -/

/-- The reset state's framebuffer with the listed pixels set. -/
def lit : List (Nat × Nat) → Display
  | [] => Display.clear
  | (x, y) :: ps => (lit ps).setPixel x y true

/-- T100. -/
theorem test_clearDisplay :
    let s := ran (holding { State.reset.setReg 0xF#4 0x01#8 with FB := lit [(0, 0), (63, 31), (10, 5)] } 0x00E0#16)
    s.FB = lit [] ∧ s.reg 0xF#4 = 0x01#8 := by decide +kernel
/-- T105: two rows, one collision. -/
theorem test_draw :
    let s := ran (holding (atI { regs 0x04#8 0x02#8 0x00#8 with FB := lit [(5, 2), (20, 20)] } 0x0300#16 [0xC0#8, 0x03#8]) 0xD122#16)
    s.FB = lit [(4, 2), (10, 3), (11, 3), (20, 20)] ∧ s.reg 0xF#4 = 0x01#8 := by decide +kernel
/-- T125: the memory fault wins over the display fault. -/
theorem test_draw_fault_order :
    (ran (holding { regs 0x39#8 0x00#8 0x00#8 with I := 0x0FFF#16 } 0xD122#16)).result =
      .raised (.memoryOutOfBounds 0x0FFF 2) := by decide +kernel

/-! Keys and the other rejected operations -/

/-- T120. -/
theorem test_keyPressed : (ran (at200 0xE19E#16)).result = .raised (.unsupportedOperation 0xE19E#16) := by decide +kernel
/-- T121. -/
theorem test_keyNotPressed : (ran (at200 0xE1A1#16)).result = .raised (.unsupportedOperation 0xE1A1#16) := by decide +kernel
/-- T122. -/
theorem test_waitKey : (ran (at200 0xF10A#16)).result = .raised (.unsupportedOperation 0xF10A#16) ∧
    (ran (at200 0xF10A#16)).pc = 0x0202#16 := by decide +kernel
/-- T136. -/
theorem test_spriteAddressRegister : (ran (at200 0xF029#16)).result = .raised (.unsupportedOperation 0xF029#16) := by decide +kernel

/-! The F family -/

/-- T130. -/
theorem test_getDelayTimer : (ran (holding { State.reset with DT := 0x3C#8 } 0xF407#16)).reg 0x4#4 = 0x3C#8 := by decide +kernel
/-- T131. -/
theorem test_setDelayTimer :
    let s := ran (holding (State.reset.setReg 0x4#4 0x3C#8) 0xF415#16)
    s.DT = 0x3C#8 ∧ s.ST = 0x00#8 := by decide +kernel
/-- T132. -/
theorem test_setSoundTimer :
    let s := ran (holding (State.reset.setReg 0x4#4 0x05#8) 0xF418#16)
    s.DT = 0x00#8 ∧ s.ST = 0x05#8 := by decide +kernel
/-- T133, T134. -/
theorem test_addAddressRegister :
    (ran (holding { regs 0x00#8 0x70#8 0x00#8 with I := 0x0FA0#16 } 0xF21E#16)).I = 0x1010#16 ∧
    (ran (holding { regs 0x00#8 0x02#8 0x00#8 with I := 0xFFFF#16 } 0xF21E#16)).I = 0x0001#16 := by decide +kernel
/-- T141, T142: the last base that fits, and the first that does not. -/
theorem test_storeBCD :
    (ran (holding { State.reset.setReg 0x0#4 0x7B#8 with I := 0x0FFD#16 } 0xF033#16)).mem.readBytes 0x0FFD 3 =
      [0x01#8, 0x02#8, 0x03#8] ∧
    (ran (holding { State.reset.setReg 0x0#4 0x7B#8 with I := 0x0FFE#16 } 0xF033#16)).mem.readBytes 0x0FFE 2 =
      [0x00#8, 0x00#8] := by decide +kernel
/-- T146. -/
theorem test_dumpRegisters :
    let s := ran (holding { (State.reset.setReg 0x0#4 0x01#8).setReg 0xF#4 0xEE#8 with I := 0x0FF0#16 } 0xFF55#16)
    s.mem.read 0x0FF0 = 0x01#8 ∧ s.mem.read 0x0FF1 = 0x00#8 ∧ s.mem.read 0x0FFF = 0xEE#8 ∧ s.I = 0x0FF0#16 := by decide +kernel
/-- T150. -/
theorem test_loadRegisters :
    let s := ran (holding (atI (State.reset.setReg 0x3#4 0x99#8) 0x0300#16 [0x02#8, 0x03#8, 0x04#8, 0x05#8]) 0xF265#16)
    s.reg 0x0#4 = 0x02#8 ∧ s.reg 0x2#4 = 0x04#8 ∧ s.reg 0x3#4 = 0x99#8 ∧ s.I = 0x0300#16 := by decide +kernel

/-! Reset and host operations -/

theorem test_reset_pc : State.reset.pc = 0x0200#16 := by decide
theorem test_launch_default : State.launch {} = (State.reset, true) := by decide +kernel
/-- H8. -/
theorem test_launch_does_not_fit :
    (State.launch { initialPc := 0x0FFF#16, program := some [0x60#8, 0x01#8] }).2 = false := by decide +kernel
/-- R212, R214 at the end of memory: two bytes at 4094 are loaded, one byte at 4096 is not. -/
theorem test_launch_at_the_end :
    (State.launch { initialPc := 0x0FFE#16, program := some [0x60#8, 0x01#8] }).2 = true ∧
    (State.launch { initialPc := 0x1000#16, program := some [0x60#8] }).2 = false := by decide +kernel
/-- One byte at 4095: loaded or not as the free value says, and written iff loaded (log entry 10). -/
theorem test_launch_one_byte_at_4095 :
    let r := State.launch { initialPc := 0x0FFF#16, program := some [0x60#8] }
    (r.2 = true ∧ r.1.mem.read 4095 = 0x60#8) ∨ (r.2 = false ∧ r.1.mem.read 4095 = 0x00#8) := by
  rcases launch_cases { initialPc := 0x0FFF#16, program := some [0x60#8] } with ⟨h, _⟩ | ⟨image, h, ⟨_, _, e⟩ | ⟨_, e⟩⟩ <;>
    cases h <;> simp only [e]
  · exact .inl ⟨trivial, by decide⟩
  · exact .inr ⟨trivial, by decide⟩
/-- The empty image loads wherever it is put up to 4096, at 4095 too (R214). -/
theorem test_launch_empty_image :
    (State.launch { initialPc := 0x0FFF#16, program := some [] }).2 = true ∧
    (State.launch { initialPc := 0x1001#16, program := some [] }).2 = false := by decide +kernel
/-- H7: FILL = 55. -/
theorem test_launch_fill :
    let s := (State.launch { fill := 0x55#8, initialPc := 0x0300#16, program := some [0x60#8, 0x01#8] }).1
    s.mem.readBytes 0x02FF 4 = [0x55#8, 0x60#8, 0x01#8, 0x55#8] := by decide +kernel
/-- H1, H2. -/
theorem test_hostWrite :
    (State.reset.hostWrite 0x0FFC [0xAA#8, 0xBB#8, 0xCC#8, 0xDD#8]).2 = true ∧
    State.reset.hostWrite 0x0FFD [0xAA#8, 0xBB#8, 0xCC#8, 0xDD#8] = (State.reset, false) := by decide +kernel
/-- H5. -/
theorem test_hostWrite_empty : (State.reset.hostWrite 0x1000 []).2 = true ∧ (State.reset.hostWrite 0x1001 []).2 = false := by
  decide +kernel
/-- H10: ticks stop at zero. -/
theorem test_tick : ({ State.reset with DT := 0x01#8 } : State).tick.DT = 0x00#8 ∧ State.reset.tick.DT = 0x00#8 := by decide
/-- H11, R221: a self-jump is parked. -/
theorem test_parked : (at200 0x1200#16).parked = true ∧ (at200 0x1202#16).parked = false := by decide +kernel

/-! Witnesses: for every statement with hypotheses, a case that meets them all -/

theorem test_witness_DecodeOfEncode : (Instr.callMachineCode 0x0E1#12).wf = true := by decide
theorem test_witness_EncodeOfDecode : decode 0x8AB6#16 = .op (.shiftRight 0xA#4 0xB#4) := by decide
/-- Rows 1 and 3 (00EE and 0nnn) share the word 00EE. -/
theorem test_witness_OpcodeRows : ∃ rj rk, opcodeMap[0]? = some rj ∧ opcodeMap[2]? = some rk ∧
    0x00EE#16 &&& rj.mask = rj.fixed ∧ 0x00EE#16 &&& rk.mask = rk.fixed :=
  ⟨_, _, rfl, rfl, by decide, by decide⟩
/-- At the last address a fetch succeeds at. -/
theorem test_witness_StepRuns :
    let s := holding { State.reset with pc := 0x0FFE#16 } 0x6001#16
    s.pc.toNat ≤ 4094 ∧ (0x6001#16).toNat = 256 * (s.mem.read s.pc.toNat).toNat + (s.mem.read (s.pc.toNat + 1)).toNat ∧
      decode 0x6001#16 = .op (.setRegConst 0x0#4 0x01#8) := by decide +kernel
theorem test_witness_FetchPastMemory : 4095 ≤ ({ State.reset with pc := 0x0FFF#16 } : State).pc.toNat := by decide
theorem test_witness_InvalidWord : (at200 0x5121#16).fetch = .ok 0x5121#16 ∧ decode 0x5121#16 = .invalid 0x5121#16 :=
  ⟨rfl, by decide⟩
/-- A faulting step (execute), and one whose fetch fails. -/
theorem test_witness_FaultingSteps :
    (∃ t, step (at200 0x00EE#16) = .next t ∧ t.result = .raised .invalidReturn) ∧
    ∃ t, step { State.reset with pc := 0x0FFF#16 } = .next t ∧ t.result = .raised (.memoryOutOfBounds 4095 2) :=
  ⟨⟨_, rfl, rfl⟩, _, rfl, rfl⟩
theorem test_witness_Invariant : State.reset.Inv ∧ ∃ t, step State.reset = .next t :=
  ⟨⟨rfl, by decide, by simp [State.reset], by simp [State.reset], by simp [State.reset]⟩, _, rfl⟩
/-- At the greatest INITIAL_PC the statement admits. -/
theorem test_witness_HostOperations : ∀ c, HostOp.reset { initialPc := 0x10FE#16 } = .reset c → c.initialPc.toNat ≤ 4350 := by
  intro c h
  cases h
  decide
theorem test_witness_StepsNeverRead : ∃ t, step (at200 0x00EE#16) = .next t := ⟨_, rfl⟩
theorem test_witness_FirstFault : ∃ t, step (at200 0x00EE#16) = .next t ∧ t.firstFault = some .invalidReturn := ⟨_, rfl, rfl⟩
theorem test_witness_Launch_fits : (0x0200#16).toNat + (List.replicate 3584 0x00#8).length ≤ 4096 ∧
    ¬ (0x0200#16).toNat + (List.replicate 3585 0x00#8).length ≤ 4096 := by
  simp only [List.length_replicate]
  decide
theorem test_witness_HostWrite : 4096 < 4093 + [0xAA#8, 0xBB#8, 0xCC#8, 0xDD#8].length ∧
    4092 + [0xAA#8, 0xBB#8, 0xCC#8, 0xDD#8].length ≤ 4096 := by decide
/-- The two clauses of a jump: to 4095, and to its own address. -/
theorem test_witness_Jump : (0xFFF#12 : Addr12).toNat = 4095 ∧ State.reset.pc.toNat = (0x200#12 : Addr12).toNat ∧
    ∃ t, exec (.jump 0xFFF#12) State.reset = .next t ∧ t.pc.toNat = 4095 := ⟨rfl, rfl, _, rfl, rfl⟩
/-- A stack one below a finite depth, a full one, and an unbounded one. -/
theorem test_witness_Call :
    (∀ d, ({ State.reset with stackDepth := some 1 } : State).stackDepth = some d → State.reset.stack.length < d) ∧
    (({ State.reset with stackDepth := some 0 } : State).stackDepth = some 0 ∧ 0 ≤ State.reset.stack.length) ∧
    (∀ d, State.reset.stackDepth = some d → State.reset.stack.length < d) := by
  refine ⟨fun d h => ?_, ⟨rfl, by decide⟩, fun d h => ?_⟩
  · cases h; decide
  · cases h
theorem test_witness_Return : ({ State.reset with stack := [0x0204#16] } : State).stack = 0x0204#16 :: [] ∧
    State.reset.stack = [] := ⟨rfl, rfl⟩
theorem test_witness_ReturnAfterCall :
    let s := at200 0x2300#16
    let t := ran s
    let u := holding t 0x00EE#16
    s.holdsAtPc (.callSubroutine 0x300#12) ∧ (∀ d, s.stackDepth = some d → s.stack.length < d) ∧ u.stack = t.stack ∧
      u.holdsAtPc .ret := by
  refine ⟨⟨by decide +kernel, by decide +kernel⟩, fun d h => ?_, rfl, ⟨by decide +kernel, by decide +kernel⟩⟩
  cases h
theorem test_witness_SelfJump : (at200 0x1200#16).pc.toNat = (0x200#12).toNat ∧ (at200 0x1200#16).holdsAtPc (.jump 0x200#12) :=
  ⟨by decide +kernel, by decide +kernel, by decide +kernel⟩
/-- The last address a skip can stand at. -/
theorem test_witness_SkipSteps :
    let s := holding { State.reset with pc := 0x0FFE#16 } 0x3000#16
    s.holdsAtPc (.skipIfRegEqConst 0x0#4 0x00#8) ∧ s.reg 0x0#4 = 0x00#8 :=
  ⟨⟨by decide +kernel, by decide +kernel⟩, by decide +kernel⟩
/-- For AddReg, the subtractions and the shifts: a destination other than VF. -/
theorem test_witness_AluFlag : (0xE#4 : RegIx) ≠ 0xF#4 := by decide
theorem test_witness_Flags : State.reset.result = .ok ∧ (∃ t, exec (.addReg 0x1#4 0x2#4) State.reset = .next t ∧ t.result = .ok) ∧
    ∃ t, exec (.draw 0x1#4 0x2#4 0x1#4) State.reset = .next t ∧ t.result = .ok := ⟨rfl, ⟨_, rfl, rfl⟩, _, rfl, rfl⟩
/-- T107: the last place in the grid, the last row in memory; and height 0 with coordinates and I anywhere (T112). -/
theorem test_witness_Draw :
    (let s := { regs 0x38#8 0x1F#8 0x00#8 with I := 0x0FFF#16 }
     s.I.toNat + (0x1#4).toNat ≤ 4096 ∧ (s.reg 0x1#4).toNat + 8 ≤ 64 ∧ (s.reg 0x2#4).toNat + (0x1#4).toNat ≤ 32) ∧
    ((0x0#4 : Nibble).toNat ≠ 0 → False) := by decide +kernel
/-- One past each bound of a draw. -/
theorem test_witness_DrawRaises :
    4096 < (0x1000#16).toNat + (0x1#4).toNat ∧ (0x0FFF#16).toNat + (0x1#4).toNat ≤ 4096 ∧
    ((regs 0x39#8 0x00#8 0x00#8).reg 0x1#4).toNat > 56 ∧
    ((regs 0x00#8 0x20#8 0x00#8).reg 0x2#4).toNat + (0x1#4).toNat > 32 := by decide +kernel
/-- The second draw from the state the first one left; the screen was clear and the sprite is not empty. -/
theorem test_witness_DrawTwice :
    let s := atI (regs 0x04#8 0x02#8 0x00#8) 0x0300#16 [0x80#8]
    ∃ t, exec (.draw 0x1#4 0x2#4 0x1#4) s = .next t ∧ t.I = s.I ∧ t.reg 0x1#4 = s.reg 0x1#4 ∧ t.reg 0x2#4 = s.reg 0x2#4 ∧
      KeepsMemory s t ∧ s.FB = lit [] ∧ s.mem.read s.I.toNat ≠ 0x00#8 :=
  ⟨_, rfl, rfl, by decide +kernel, by decide +kernel, fun _ => rfl, rfl, by decide +kernel⟩
theorem test_witness_ReportedWord : (at200 0xF00A#16).fetch = .ok 0xF00A#16 ∧
    ∃ t, step (at200 0xF00A#16) = .next t ∧ t.result = .raised (.unsupportedOperation 0xF00A#16) := ⟨rfl, _, rfl, rfl⟩
/-- The last bases that fit, for three bytes, for sixteen, and for one. -/
theorem test_witness_Transfers : (0x0FFD#16).toNat + 2 ≤ 4095 ∧ (0x0FF0#16).toNat + (0xF#4).toNat ≤ 4095 ∧
    (0x0FFF#16).toNat + (0x0#4).toNat ≤ 4095 := by decide
/-- The first bases that do not fit. -/
theorem test_witness_TransfersRaise : 4095 < (0x0FFE#16).toNat + 2 ∧ 4095 < (0x0FF1#16).toNat + (0xF#4).toNat ∧
    4095 < (0x1000#16).toNat + (0x0#4).toNat := by decide
theorem test_witness_LoadAfterDump :
    let s := { State.reset.setReg 0x0#4 0x11#8 with I := 0x0300#16 }
    ∃ t, exec (.dumpRegisters 0x0#4) s = .next t ∧ t.I = s.I ∧ KeepsMemory t t := ⟨_, rfl, rfl, fun _ => rfl⟩
theorem test_witness_StoredBytes : State.reset.pc.toNat ≤ 4094 ∧ (0x01FE#16).toNat + 2 ≤ 4095 ∧
    (0x0201#16).toNat + (0x0#4).toNat ≤ 4095 ∧ 0x0201 + [0xAA#8].length ≤ 4096 := by decide
/-- A StoreBCD of 254 whose last digit alone overlaps the two bytes at pc, and a dump over the second of them alone. -/
theorem test_stored_byte_is_fetched :
    (∃ t, exec (.storeBCD 0x1#4) (atI (regs 0xFE#8 0x00#8 0x00#8) 0x01FE#16 []) = .next t ∧ t.fetch = .ok 0x0400#16) ∧
    ∃ t, exec (.dumpRegisters 0x0#4) (atI State.reset 0x0201#16 [0x55#8]) = .next t ∧ t.fetch = .ok 0x0000#16 :=
  ⟨⟨_, rfl, rfl⟩, _, rfl, rfl⟩
theorem test_witness_MemoryChanges :
    (ran (holding { State.reset.setReg 0x0#4 0xFF#8 with I := 0x0300#16 } 0xF033#16)).mem.read 0x0302 ≠
      (holding { State.reset.setReg 0x0#4 0xFF#8 with I := 0x0300#16 } 0xF033#16).mem.read 0x0302 := by decide +kernel
theorem test_witness_StackChanges : (ran (at200 0x2300#16)).stack ≠ (at200 0x2300#16).stack := by decide +kernel
theorem test_witness_DisplayChanges :
    (ran (holding { State.reset with FB := lit [(3, 3)] } 0x00E0#16)).FB.pixel 3 3 ≠ (lit [(3, 3)]).pixel 3 3 := by decide +kernel
theorem test_witness_SpecialRegisters :
    (ran (at200 0xA123#16)).I ≠ (at200 0xA123#16).I ∧
    (ran (holding (State.reset.setReg 0x4#4 0x05#8) 0xF415#16)).DT ≠ 0x00#8 ∧
    (ran (holding (State.reset.setReg 0x4#4 0x05#8) 0xF418#16)).ST ≠ 0x00#8 := by decide +kernel
theorem test_witness_RandomRequests : (at200 0xC3FF#16).nextOp = some (.setRegRandomMasked 0x3#4 0xFF#8) ∧
    (at200 0x6001#16).nextOp = some (.setRegConst 0x0#4 0x01#8) := by decide +kernel
theorem test_witness_RegistersChange : (ran (at200 0x6A2B#16)).reg 0xA#4 ≠ (at200 0x6A2B#16).reg 0xA#4 := by decide +kernel
/-- A failed fetch, a taken skip, a fault in a call, a return, a jump with an offset: each line of R17. -/
theorem test_witness_PcMoves_clauses :
    (ran { State.reset with pc := 0x0FFF#16 }).pc = 0x0FFF#16 ∧ (ran (at200 0x3000#16)).pc = 0x0204#16 ∧
    (ran { at200 0x2300#16 with stackDepth := some 0 }).pc = 0x0202#16 ∧
    (ran { at200 0x00EE#16 with stack := [0x0ABC#16] }).pc = 0x0ABC#16 ∧
    (ran (holding (State.reset.setReg 0x0#4 0xFF#8) 0xBFFF#16)).pc = 0x10FE#16 :=
  ⟨rfl, rfl, rfl, rfl, rfl⟩
/-- One state for each code 0 to 6 (R180). -/
theorem test_witness_ResultCodes :
    (ran (at200 0x6A2B#16)).result.code = 0 ∧ (ran { State.reset with pc := 0x0FFF#16 }).result.code = 1 ∧
    (ran (at200 0x5121#16)).result.code = 2 ∧ (ran (at200 0x00EE#16)).result.code = 3 ∧
    (ran (at200 0xF00A#16)).result.code = 4 ∧
    (ran (holding (State.reset.setReg 0x1#4 0x39#8) 0xD121#16)).result.code = 5 ∧
    (ran { at200 0x2300#16 with stackDepth := some 0 }).result.code = 6 :=
  ⟨rfl, rfl, rfl, rfl, rfl, rfl, rfl⟩
theorem test_witness_PcMoves : ∃ t, step (at200 0x1ABC#16) = .next t ∧ t.pc = 0x0ABC#16 := ⟨_, rfl, rfl⟩

end Sys2Proof.Tests
end

section
/-! The rows of the opcode map, pair by pair (30_encoding.md rule R65). A word in two rows fixes what each row's fixed bits
are under the other's mask, so whether two rows share a word is a fact about their four constants, with no word in it. -/

namespace Sys2Proof

/-- The fixed bits of two rows agree wherever both masks look. -/
def OpcodeRow.Agree (r r' : OpcodeRow) : Prop := r.fixed &&& r'.mask = r'.fixed &&& r.mask

theorem OpcodeRow.agree_of_shared_word {r r' : OpcodeRow} {w : Word} (h : w &&& r.mask = r.fixed)
    (h' : w &&& r'.mask = r'.fixed) : r.Agree r' :=
  calc r.fixed &&& r'.mask
    _ = w &&& r.mask &&& r'.mask := by rw [h]
    _ = w &&& r'.mask &&& r.mask := by ac_rfl
    _ = r'.fixed &&& r.mask := by rw [h']

/-- The only row of R66 that agrees with an earlier one is row 3 (index 2), the family pattern `0nnn`: a finite fact about
the table's constants. -/
theorem opcodeMap_agree_with_earlier_only_row3 :
    ∀ k j : Fin opcodeMap.length, j < k → opcodeMap[j].Agree opcodeMap[k] → k.val = 2 := by
  unfold OpcodeRow.Agree
  decide

/-- Settles O5: the two full-word patterns decode as their own rows, and rows that share a word agree. -/
theorem opcodeRowsAreDisjoint : Obligations.OpcodeRowsAreDisjoint := by
  refine ⟨rfl, rfl, fun j k rj rk w hjk hj hk hwj hwk => ?_⟩
  obtain ⟨hjlt, rfl⟩ := List.getElem?_eq_some_iff.1 hj
  obtain ⟨hklt, rfl⟩ := List.getElem?_eq_some_iff.1 hk
  exact opcodeMap_agree_with_earlier_only_row3 ⟨k, hklt⟩ ⟨j, hjlt⟩ hjk (OpcodeRow.agree_of_shared_word hwj hwk)

end Sys2Proof
end

section
/-! Control transfer (41_flow.md): a write of pc as a frame, and Jump. -/

namespace Sys2Proof.Machine

/-! A write of pc -/

/-- A write of pc changes nothing else (R16). -/
theorem onlyPc_setPc (s : State) (v : Word) : OnlyPc s (s.setPc v) := by
  simp [OnlyPc, KeepsRegsBut, KeepsCore, KeepsTimers, KeepsDisplay, KeepsMemory, KeepsOutside, KeepsRecord]

@[simp] theorem setPc_self (s : State) : s.setPc s.pc = s := rfl

/-- The later write of pc is the one that counts: the advance made before execute is overwritten (R82, R92). -/
@[simp] theorem advance_setPc (s : State) (v : Word) : s.advance.setPc v = s.setPc v := rfl

/-! Jump -/

theorem decode_jump (nnn : Addr12) : decode (wordA 0x1#4 nnn) = .op (.jump nnn) := by
  simp [decode]

theorem exec_jump (nnn : Addr12) (s : State) : exec (.jump nnn) s = .next (s.setPc (addrOfConst nnn)) := rfl

/-- A Jump to the address pc already holds changes nothing (R92). -/
theorem setPc_addrOfConst_of_eq {nnn : Addr12} {s : State} (h : s.pc.toNat = nnn.toNat) :
    s.setPc (addrOfConst nnn) = s := by
  have hpc : addrOfConst nnn = s.pc := BitVec.eq_of_toNat_eq (by rw [addrOfConst_toNat, h])
  rw [hpc, setPc_self]

/-- The fetch after a Jump to 4095 lies past memory (R81, R92). -/
theorem fetch_setPc_addrOfConst_of_eq_4095 {nnn : Addr12} (s : State) (h : nnn.toNat = 4095) :
    (s.setPc (addrOfConst nnn)).fetch = .error (.memoryOutOfBounds 4095 2) := by
  have hpc : (s.setPc (addrOfConst nnn)).pc.toNat = 4095 := by rw [setPc_pc, addrOfConst_toNat, h]
  rw [fetch_error hpc.ge, hpc]

/-- Settles O22: a Jump is one write of pc, so the advance before it leaves no trace. -/
theorem jumpSetsPc : Obligations.JumpSetsPc := by
  refine fun nnn s => ⟨decode_jump nnn, s.setPc (addrOfConst nnn), exec_jump nnn s, ?pc, onlyPc_setPc s _, ?overwritten,
    fetch_setPc_addrOfConst_of_eq_4095 s, setPc_addrOfConst_of_eq⟩
  case pc => rw [setPc_pc, addrOfConst_toNat]
  case overwritten => rw [exec_jump, advance_setPc]

end Sys2Proof.Machine
end

section
/-! The skips as steps (42_skip.md): a skip is one write of pc, 4 or 2 past its own address. -/

namespace Sys2Proof.Machine

/-- A step on an instruction that lies at pc executes it on the advanced state (R81, R82, R84). -/
theorem step_of_holdsAtPc {s : State} {i : Instr} (h : s.holdsAtPc i) (hd : decode (encode i) = .op i) :
    step s = exec i s.beginStep.advance := by
  obtain ⟨hpc, hbytes⟩ := h
  exact step_of_op ((fetch_ok hpc).trans (congrArg Except.ok hbytes)) hd

/-- `i` is a skip whose condition on `s` is `c` (R101 to R104). -/
def SkipsWhen (i : Instr) (c : Prop) (s : State) : Prop :=
  (∃ rx kk, i = .skipIfRegEqConst rx kk ∧ (c ↔ s.reg rx = kk)) ∨
    (∃ rx kk, i = .skipIfRegNeqConst rx kk ∧ (c ↔ s.reg rx ≠ kk)) ∨
    (∃ rx ry, i = .skipIfRegEqReg rx ry ∧ (c ↔ s.reg rx = s.reg ry)) ∨
    (∃ rx ry, i = .skipIfRegNeqReg rx ry ∧ (c ↔ s.reg rx ≠ s.reg ry))

/-- The word of a skip decodes as that skip (R66). -/
theorem SkipsWhen.decode_encode {i : Instr} {c : Prop} {s : State} (h : SkipsWhen i c s) : decode (encode i) = .op i := by
  obtain ⟨rx, kk, rfl, -⟩ | ⟨rx, kk, rfl, -⟩ | ⟨rx, ry, rfl, -⟩ | ⟨rx, ry, rfl, -⟩ := h <;> simp [encode, decode]

/-- Every skip executes by the common rule, on its own condition (R100). -/
theorem SkipsWhen.exec_eq {i : Instr} {c : Prop} {s : State} (h : SkipsWhen i c s) :
    ∃ b : Bool, (b = true ↔ c) ∧ exec i s = skipIf b s := by
  obtain ⟨rx, kk, rfl, hc⟩ | ⟨rx, kk, rfl, hc⟩ | ⟨rx, ry, rfl, hc⟩ | ⟨rx, ry, rfl, hc⟩ := h
  · exact ⟨s.reg rx == kk, beq_iff_eq.trans hc.symm, rfl⟩
  · exact ⟨s.reg rx != kk, bne_iff_ne.trans hc.symm, rfl⟩
  · exact ⟨s.reg rx == s.reg ry, beq_iff_eq.trans hc.symm, rfl⟩
  · exact ⟨s.reg rx != s.reg ry, bne_iff_ne.trans hc.symm, rfl⟩

/-- The advance before execute and the skip's own make one write of pc (R82, R100). -/
theorem skipIf_advance (b : Bool) (s : State) :
    skipIf b s.advance = .next (s.setPc (s.pc + if b then 4#16 else 2#16)) := by
  cases b with
  | false => rfl
  | true =>
    have hpc : s.pc + 2#16 + 2#16 = s.pc + 4#16 := BitVec.add_assoc ..
    exact congrArg (fun v => Host.Outcome.next (s.setPc v)) hpc

/-- From an address an instruction can be fetched at, a skip's write of pc does not wrap (R100). -/
theorem skipPc_toNat {p : Word} (b : Bool) (h : p.toNat ≤ 4094) :
    (p + if b then 4#16 else 2#16).toNat = p.toNat + if b then 4 else 2 := by
  cases b <;> simp <;> omega

/-- Settles O29: the step of a skip is one write of pc on the state with the result `Ok`. -/
theorem skipStepsMovePcByFourOrTwo : Obligations.SkipStepsMovePcByFourOrTwo := by
  intro i c s hat (hskip : SkipsWhen i c s.beginStep.advance)
  obtain ⟨b, hb, hexec⟩ := hskip.exec_eq
  have hstep : step s = .next (s.beginStep.setPc (s.pc + if b then 4#16 else 2#16)) := by
    rw [step_of_holdsAtPc hat hskip.decode_encode, hexec, skipIf_advance, beginStep_pc]
  have hpc := skipPc_toNat b hat.1
  obtain ⟨hregs, hcore, hresult, hfirst⟩ := onlyPc_setPc s.beginStep (s.pc + if b then 4#16 else 2#16)
  refine ⟨_, hstep, fun hc => ?holds, fun hc => ?fails, hregs, hcore, hresult, hfirst, fetch_error⟩
  case holds => rw [setPc_pc, hpc, if_pos (hb.2 hc)]
  case fails => rw [setPc_pc, hpc, if_neg (mt hb.1 hc)]

end Sys2Proof.Machine
end

section
/-! Constants (43_const.md): a write of one register and a write of I as frames, SetRegConst and SetAddrRegConst. -/

namespace Sys2Proof.Machine

/-! A write of one register -/

/-- A register write changes nothing else (R10). -/
theorem onlyRegs_setReg (s : State) (r : RegIx) (v : Byte) : OnlyRegs [r] s (s.setReg r v) := by
  have hregs : KeepsRegsBut [r] s (s.setReg r v) := fun _ hr' => setReg_reg_ne s v (List.ne_of_not_mem_cons hr')
  simp [OnlyRegs, hregs, KeepsCore, KeepsTimers, KeepsDisplay, KeepsMemory, KeepsOutside, KeepsRecord]

/-! SetRegConst -/

theorem decode_setRegConst (rx : RegIx) (kk : Byte) : decode (wordXK 0x6#4 rx kk) = .op (.setRegConst rx kk) := by
  simp [decode]

theorem exec_setRegConst (rx : RegIx) (kk : Byte) (s : State) : exec (.setRegConst rx kk) s = .next (s.setReg rx kk) := rfl

/-- Settles O30: SetRegConst is one register write. -/
theorem setRegConstWritesItsRegister : Obligations.SetRegConstWritesItsRegister := fun rx kk s =>
  ⟨decode_setRegConst rx kk, s.setReg rx kk, exec_setRegConst rx kk s, setReg_reg_same s rx kk, onlyRegs_setReg s rx kk⟩

/-! A write of I -/

/-- Only I may differ. -/
def OnlyAddr (s t : State) : Prop :=
  KeepsRegsBut [] s t ∧ t.pc = s.pc ∧ t.stack = s.stack ∧ KeepsTimers s t ∧ KeepsDisplay s t ∧ KeepsMemory s t ∧
    KeepsOutside s t ∧ KeepsRecord s t

/-- A write of I changes nothing else (R14). -/
theorem onlyAddr_setAddr (s : State) (v : Word) : OnlyAddr s (s.setAddr v) := by
  simp [OnlyAddr, KeepsRegsBut, KeepsTimers, KeepsDisplay, KeepsMemory, KeepsOutside, KeepsRecord]

/-! SetAddrRegConst -/

theorem decode_setAddrRegConst (nnn : Addr12) : decode (wordA 0xA#4 nnn) = .op (.setAddrRegConst nnn) := by
  simp [decode]

theorem exec_setAddrRegConst (nnn : Addr12) (s : State) :
    exec (.setAddrRegConst nnn) s = .next (s.setAddr (addrOfConst nnn)) := rfl

/-- Settles O32: SetAddrRegConst is one write of I, with `nnn` widened by zeros (R63). -/
theorem setAddrRegConstSetsI : Obligations.SetAddrRegConstSetsI := fun nnn s =>
  have hI : (s.setAddr (addrOfConst nnn)).I.toNat = nnn.toNat := by rw [setAddr_I, addrOfConst_toNat]
  ⟨decode_setAddrRegConst nnn, s.setAddr (addrOfConst nnn), exec_setAddrRegConst nnn s, hI, onlyAddr_setAddr s _⟩

end Sys2Proof.Machine
end

section
/-! The host's accesses to memory and the screen (70_reset_and_hazards.md): HostWrite and ReadDisplay. -/

namespace Sys2Proof.Machine

/-! A block write, read inside and outside the block -/

/-- Inside a written block, memory reads as the block's bytes (R42, R46). -/
theorem read_writeBytes_inside (m : Memory) (a : Nat) {bs : List Byte} {k : Nat} (d : Byte) (hk : k < bs.length) :
    (m.writeBytes a bs).read (a + k) = bs.getD k d := by
  have hin : a ≤ a + k ∧ a + k - a < bs.length := by omega
  rw [read_writeBytes, dif_pos hin, List.getD_eq_getElem _ _ hk]
  simp only [Nat.add_sub_cancel_left]

/-- Outside a written block, memory reads as before (R46). -/
theorem keepsMemoryOutside_writeBytes (s : State) (a : Nat) (bs : List Byte) :
    KeepsMemoryOutside a bs.length s { s with mem := s.mem.writeBytes a bs } := by
  intro a' hout
  have hnot : ¬ (a ≤ a' ∧ a' - a < bs.length) := by omega
  rw [read_writeBytes, dif_neg hnot]

/-! HostWrite -/

/-- Settles O19: a HostWrite that fits is one block write, and one that does not fit leaves the state. -/
theorem hostWriteIsAllOrNothing : Obligations.HostWriteIsAllOrNothing := by
  refine fun s offset bytes => ⟨hostWrite_error s, fun hfits => ?_⟩
  rw [hostWrite_ok s hfits]
  exact ⟨rfl, fun k hk => read_writeBytes_inside s.mem offset _ hk, keepsMemoryOutside_writeBytes s offset bytes, rfl⟩

/-! ReadDisplay -/

@[simp] theorem rowPixels_length (d : Display) (y k : Nat) : ∀ x, (d.rowPixels y x k).length = k := by
  induction k with
  | zero => exact fun _ => rfl
  | succ k ih => exact fun x => congrArg (· + 1) (ih (x + 1))

/-- Column `x + i` of row `y` is element `i` of the columns from `x` on. -/
theorem rowPixels_getElem? (d : Display) (y k : Nat) :
    ∀ x i, i < k → (d.rowPixels y x k)[i]? = some (d.pixel (x + i) y) := by
  induction k with
  | zero => exact fun _ i hi => absurd hi i.not_lt_zero
  | succ k ih =>
    rintro x (_ | i) hi
    · rfl
    · rw [Display.rowPixels, List.getElem?_cons_succ, ih (x + 1) i (by omega), Nat.add_right_comm, Nat.add_assoc]

@[simp] theorem pixelsFrom_length (d : Display) (k : Nat) : ∀ y, (d.pixelsFrom y k).length = 64 * k := by
  induction k with
  | zero => exact fun _ => rfl
  | succ k ih =>
    intro y
    rw [Display.pixelsFrom, List.length_append, rowPixels_length, ih, Config.dispW]
    omega

/-- Column `x` of row `y + j` is element `x + 64 * j` of the rows from `y` on: the rows before it are 64 pixels each. -/
theorem pixelsFrom_getElem? (d : Display) {x : Nat} (hx : x < 64) (k : Nat) :
    ∀ y j, j < k → (d.pixelsFrom y k)[x + 64 * j]? = some (d.pixel x (y + j)) := by
  induction k with
  | zero => exact fun _ j hj => absurd hj j.not_lt_zero
  | succ k ih =>
    intro y j hj
    have hrow : (d.rowPixels y 0 Config.dispW).length = 64 := rowPixels_length d y Config.dispW 0
    cases j with
    | zero =>
      have hpix := rowPixels_getElem? d y Config.dispW 0 x hx
      rw [Nat.zero_add] at hpix
      exact (List.getElem?_append_left (by omega)).trans hpix
    | succ j =>
      have hpast : x + 64 * (j + 1) - 64 = x + 64 * j := by omega
      rw [Display.pixelsFrom, List.getElem?_append_right (by omega), hrow, hpast, ih (y + 1) j (by omega),
        Nat.add_right_comm, Nat.add_assoc]

/-- Settles O21: ReadDisplay lists the rows from the top, 64 pixels each (R25). -/
theorem readDisplayIsInIndexOrder : Obligations.ReadDisplayIsInIndexOrder := by
  refine fun s => ⟨rfl, rfl, pixelsFrom_length s.FB 32 0, fun x y hx hy => ?_⟩
  have hpix := pixelsFrom_getElem? s.FB hx 32 0 y hy
  rwa [Nat.zero_add] at hpix

end Sys2Proof.Machine
end

section
/-! The encoder and the decoder undo each other (30_encoding.md rules R61 to R73). Each family's words are assembled from
their fields, and a word is its own fields put back together. In a split of `decode` the cases `h_1` to `h_16` are the
families 0 to F. -/

namespace Sys2Proof

/-! Decode of encode: one equation per family that selects by more than its first nibble -/

/-- A word of family 0 is one of the two full-word patterns only where its address part says so (R65, R67). -/
theorem decode_callMachineCode {nnn : Addr12} (h : (Instr.callMachineCode nnn).wf = true) :
    decode (wordA 0x0#4 nnn) = .op (.callMachineCode nnn) := by
  obtain ⟨hclear, hret⟩ : nnn ≠ 0x0E0#12 ∧ nnn ≠ 0x0EE#12 := by simpa [Instr.wf] using h
  have hret' : wordA 0x0#4 nnn ≠ 0x00EE#16 := fun e => hret ((fieldNnn_wordA _ _).symm.trans (congrArg fieldNnn e))
  have hclear' : wordA 0x0#4 nnn ≠ 0x00E0#16 := fun e => hclear ((fieldNnn_wordA _ _).symm.trans (congrArg fieldNnn e))
  simp [decode, decodeFamily0, hret', hclear']

theorem decode_family8 {w : Word} (h : fieldN0 w = 0x8#4) : decode w = decodeFamily8 w := by simp [decode, h]

theorem decode_familyE {w : Word} (h : fieldN0 w = 0xE#4) : decode w = decodeFamilyE w := by simp [decode, h]

theorem decode_familyF {w : Word} (h : fieldN0 w = 0xF#4) : decode w = decodeFamilyF w := by simp [decode, h]

/-- Settles O2, format by format: the fields of an assembled word are the operands it was assembled from. -/
theorem decodeOfEncodeIsTheInstruction : Obligations.DecodeOfEncodeIsTheInstruction := by
  intro i hwf
  cases i
  case ret | clearDisplay => rfl
  case callMachineCode nnn => exact decode_callMachineCode hwf
  case jump | callSubroutine | setAddrRegConst | jumpPlusOffset => simp [encode, decode]
  case skipIfRegEqConst | skipIfRegNeqConst | setRegConst | addRegConst | setRegRandomMasked => simp [encode, decode]
  case skipIfRegEqReg | skipIfRegNeqReg | draw => simp [encode, decode]
  case copyReg | orReg | andReg | xorReg | addReg | subReg | shiftRight | reverseSubReg | shiftLeft =>
    rw [encode, decode_family8 (fieldN0_wordXY _ _ _ _)]
    simp [decodeFamily8]
  case keyPressed | keyNotPressed =>
    rw [encode, decode_familyE (fieldN0_wordXK _ _ _)]
    simp [decodeFamilyE]
  case getDelayTimer | waitKey | setDelayTimer | setSoundTimer | addAddressRegister | spriteAddressRegister | storeBCD
      | dumpRegisters | loadRegisters =>
    rw [encode, decode_familyF (fieldN0_wordXK _ _ _)]
    simp [decodeFamilyF]

/-! Encode of decode: a word is the assembly of its fields, format by format -/

theorem wordA_of_fieldN0 {w : Word} {f : Nibble} (h : fieldN0 w = f) : wordA f (fieldNnn w) = w :=
  h ▸ wordA_fields w

theorem wordXK_of_fieldN0 {w : Word} {f : Nibble} (h : fieldN0 w = f) : wordXK f (fieldRx w) (fieldKk w) = w :=
  h ▸ wordXK_fields w

theorem wordXYN_of_fieldN0 {w : Word} {f : Nibble} (h : fieldN0 w = f) :
    wordXY f (fieldRx w) (fieldRy w) (fieldN w) = w :=
  h ▸ wordXY_fields w

theorem wordX_of_fields {w : Word} {f : Nibble} {kk : Byte} (h : fieldN0 w = f) (hk : fieldKk w = kk) :
    wordXK f (fieldRx w) kk = w :=
  hk ▸ wordXK_of_fieldN0 h

theorem wordXY_of_fields {w : Word} {f n : Nibble} (h : fieldN0 w = f) (hn : fieldN w = n) :
    wordXY f (fieldRx w) (fieldRy w) n = w :=
  hn ▸ wordXYN_of_fieldN0 h

/-- The word of `i` is `w`, and `i` is a reading of a word. -/
def Reads (w : Word) (i : Instr) : Prop := encode i = w ∧ i.wf = true

theorem reads_decodeFamily0 {w : Word} (h : fieldN0 w = 0x0#4) : Reads w (decodeFamily0 w) := by
  have hw := wordA_of_fieldN0 h
  unfold decodeFamily0
  split
  · next e => exact ⟨e.symm, rfl⟩
  · next hret =>
    split
    · next e => exact ⟨e.symm, rfl⟩
    · next hclear =>
      have hret' : fieldNnn w ≠ 0x0EE#12 := fun e => hret (by rw [← hw, e]; rfl)
      have hclear' : fieldNnn w ≠ 0x0E0#12 := fun e => hclear (by rw [← hw, e]; rfl)
      exact ⟨hw, by simp [Instr.wf, hret', hclear']⟩

theorem reads_of_decodeFamily8 {w : Word} {i : Instr} (h : fieldN0 w = 0x8#4) (hd : decodeFamily8 w = .op i) :
    Reads w i := by
  unfold decodeFamily8 at hd
  split at hd
  case h_10 => cases hd
  all_goals
    obtain rfl := Decoded.op.inj hd
    exact ⟨wordXY_of_fields h ‹_›, rfl⟩

theorem reads_of_decodeFamilyE {w : Word} {i : Instr} (h : fieldN0 w = 0xE#4) (hd : decodeFamilyE w = .op i) :
    Reads w i := by
  unfold decodeFamilyE at hd
  split at hd
  case h_3 => cases hd
  all_goals
    obtain rfl := Decoded.op.inj hd
    exact ⟨wordX_of_fields h ‹_›, rfl⟩

theorem reads_of_decodeFamilyF {w : Word} {i : Instr} (h : fieldN0 w = 0xF#4) (hd : decodeFamilyF w = .op i) :
    Reads w i := by
  unfold decodeFamilyF at hd
  split at hd
  case h_10 => cases hd
  all_goals
    obtain rfl := Decoded.op.inj hd
    exact ⟨wordX_of_fields h ‹_›, rfl⟩

/-- What a word decodes to is the instruction whose word it is: families 0, 8, E and F by their own lemmas, families 5 and
9 where the last nibble is 0, and the others by their format. -/
theorem reads_of_decode {w : Word} {i : Instr} (hd : decode w = .op i) : Reads w i := by
  unfold decode at hd
  split at hd <;> rename_i h
  case h_1 =>
    obtain rfl := Decoded.op.inj hd
    exact reads_decodeFamily0 h
  case h_6 | h_10 =>
    split at hd
    · next hn =>
      obtain rfl := Decoded.op.inj hd
      exact ⟨wordXY_of_fields h hn, rfl⟩
    · cases hd
  case h_9 => exact reads_of_decodeFamily8 h hd
  case h_15 => exact reads_of_decodeFamilyE h hd
  case h_16 => exact reads_of_decodeFamilyF h hd
  case h_17 => cases hd
  all_goals obtain rfl := Decoded.op.inj hd
  case h_2 | h_3 | h_11 | h_12 => exact ⟨wordA_of_fieldN0 h, rfl⟩
  case h_14 => exact ⟨wordXYN_of_fieldN0 h, rfl⟩
  all_goals exact ⟨wordXK_of_fieldN0 h, rfl⟩

/-- Settles O3: the instruction is assembled from the fields of the word, which make up the word. -/
theorem encodeOfDecodeIsTheWord : Obligations.EncodeOfDecodeIsTheWord := fun _ _ hd => reads_of_decode hd

end Sys2Proof
end

section
/-! The opcode map as a second reading of every word (30_encoding.md rules R66 and R73): a row's mask and match test
exactly the fields its format fixes (R62). In a split of `decode` the cases `h_1` to `h_16` are the families 0 to F. -/

namespace Sys2Proof

/-! The rows' tests as tests of fields -/

/-- A row of format A or XK tests the family alone. -/
theorem and_familyMask_eq_iff (w : Word) (f : Nibble) : w &&& 0xF000#16 = wordA f 0x000#12 ↔ fieldN0 w = f := by
  constructor
  · intro h
    rw [← wordA_fields w, Laws.Encoding.formA] at h
    simpa using congrArg fieldN0 h
  · rintro rfl
    conv_lhs => rw [← wordA_fields w]
    exact Laws.Encoding.formA _ _

/-- A row of format XY tests the family and the last nibble. -/
theorem and_nibbleMask_eq_iff (w : Word) (f n : Nibble) :
    w &&& 0xF00F#16 = wordXY f 0x0#4 0x0#4 n ↔ fieldN0 w = f ∧ fieldN w = n := by
  constructor
  · intro h
    rw [← wordXY_fields w, Laws.Encoding.formXY] at h
    exact ⟨by simpa using congrArg fieldN0 h, by simpa using congrArg fieldN h⟩
  · rintro ⟨rfl, rfl⟩
    conv_lhs => rw [← wordXY_fields w]
    exact Laws.Encoding.formXY _ _ _ _

/-- A row of format X tests the family and the second byte. -/
theorem and_byteMask_eq_iff (w : Word) (f : Nibble) (kk : Byte) :
    w &&& 0xF0FF#16 = wordXK f 0x0#4 kk ↔ fieldN0 w = f ∧ fieldKk w = kk := by
  constructor
  · intro h
    rw [← wordXK_fields w, Laws.Encoding.formX] at h
    exact ⟨by simpa using congrArg fieldN0 h, by simpa using congrArg fieldKk h⟩
  · rintro ⟨rfl, rfl⟩
    conv_lhs => rw [← wordXK_fields w]
    exact Laws.Encoding.formX _ _ _

/-! The map, row by row -/

/-- Reading a word by the first of `rows` whose test it passes. -/
def decodeByRows (rows : List OpcodeRow) (w : Word) : Decoded :=
  match rows.find? (fun r => w &&& r.mask == r.fixed) with
  | some r => .op (r.build w)
  | none => .invalid w

theorem decodeByMap_eq (w : Word) : decodeByMap w = decodeByRows opcodeMap w := rfl

@[simp] theorem decodeByRows_nil (w : Word) : decodeByRows [] w = .invalid w := rfl

theorem decodeByRows_cons (r : OpcodeRow) (rows : List OpcodeRow) (w : Word) :
    decodeByRows (r :: rows) w = if w &&& r.mask = r.fixed then .op (r.build w) else decodeByRows rows w := by
  by_cases h : w &&& r.mask = r.fixed <;> simp [decodeByRows, h]

@[simp] theorem decodeByRows_rowWord (c : Word) (mk : Word → Instr) (rows : List OpcodeRow) (w : Word) :
    decodeByRows (⟨0xFFFF#16, c, mk⟩ :: rows) w = if w = c then .op (mk w) else decodeByRows rows w := by
  rw [decodeByRows_cons, show w &&& 0xFFFF#16 = w from BitVec.and_allOnes]

@[simp] theorem decodeByRows_rowA (f : Nibble) (mk : Addr12 → Instr) (rows : List OpcodeRow) (w : Word) :
    decodeByRows (rowA f mk :: rows) w = if fieldN0 w = f then .op (mk (fieldNnn w)) else decodeByRows rows w := by
  simp only [decodeByRows_cons, rowA, and_familyMask_eq_iff]

@[simp] theorem decodeByRows_rowXK (f : Nibble) (mk : RegIx → Byte → Instr) (rows : List OpcodeRow) (w : Word) :
    decodeByRows (rowXK f mk :: rows) w =
      if fieldN0 w = f then .op (mk (fieldRx w) (fieldKk w)) else decodeByRows rows w := by
  simp only [decodeByRows_cons, rowXK, and_familyMask_eq_iff]

@[simp] theorem decodeByRows_rowXY (f n : Nibble) (mk : RegIx → RegIx → Instr) (rows : List OpcodeRow) (w : Word) :
    decodeByRows (rowXY f n mk :: rows) w =
      if fieldN0 w = f ∧ fieldN w = n then .op (mk (fieldRx w) (fieldRy w)) else decodeByRows rows w := by
  simp only [decodeByRows_cons, rowXY, and_nibbleMask_eq_iff]

@[simp] theorem decodeByRows_rowX (f : Nibble) (kk : Byte) (mk : RegIx → Instr) (rows : List OpcodeRow) (w : Word) :
    decodeByRows (rowX f kk mk :: rows) w =
      if fieldN0 w = f ∧ fieldKk w = kk then .op (mk (fieldRx w)) else decodeByRows rows w := by
  simp only [decodeByRows_cons, rowX, and_byteMask_eq_iff]

/-- The row of Draw, the one of format XYN. -/
@[simp] theorem decodeByRows_rowDraw (mk : Word → Instr) (rows : List OpcodeRow) (w : Word) :
    decodeByRows (⟨0xF000#16, 0xD000#16, mk⟩ :: rows) w =
      if fieldN0 w = 0xD#4 then .op (mk w) else decodeByRows rows w := by
  rw [decodeByRows_cons, show 0xD000#16 = wordA 0xD#4 0x000#12 from rfl]
  simp only [and_familyMask_eq_iff]

/-- A word of another family than 0 is neither of the two full-word patterns. -/
theorem ne_fullWord_of_fieldN0_ne {w : Word} (h : fieldN0 w ≠ 0x0#4) : w ≠ 0x00EE#16 ∧ w ≠ 0x00E0#16 :=
  ⟨fun e => h (e ▸ rfl), fun e => h (e ▸ rfl)⟩

/-- Settles O4: in each family the two readings make the same tests of the same fields. -/
theorem decoderIsTheOpcodeMap : Obligations.DecoderIsTheOpcodeMap := by
  refine ⟨rfl, fun w => ?_⟩
  rw [decodeByMap_eq, opcodeMap, opcodeRows1, opcodeRows2, opcodeRows3]
  by_cases h0 : fieldN0 w = 0x0#4
  case pos => simp [decode, h0, decodeFamily0, apply_ite Decoded.op]
  case neg =>
    obtain ⟨hret, hclear⟩ := ne_fullWord_of_fieldN0_ne h0
    unfold decode
    split <;> rename_i h <;> simp [h, hret, hclear]
    case h_1 => exact absurd h h0
    case h_9 => unfold decodeFamily8; split <;> simp_all
    case h_15 => unfold decodeFamilyE; split <;> simp_all
    case h_16 => unfold decodeFamilyF; split <;> simp_all
    case h_17 => simp_all

/-! The invalid words -/

/-- Family 8 has a row for nine of the sixteen last nibbles (R68). -/
theorem decodeFamily8_eq_invalid_iff (w : Word) :
    decodeFamily8 w = .invalid w ↔ fieldN w ∈ [0x8#4, 0x9#4, 0xA#4, 0xB#4, 0xC#4, 0xD#4, 0xF#4] := by
  unfold decodeFamily8
  split <;> rename_i h
  case h_10 =>
    have hrest : ∀ n : Nibble, n ∉ [0x0#4, 0x1#4, 0x2#4, 0x3#4, 0x4#4, 0x5#4, 0x6#4, 0x7#4, 0xE#4] →
      n ∈ [0x8#4, 0x9#4, 0xA#4, 0xB#4, 0xC#4, 0xD#4, 0xF#4] := by decide
    exact iff_of_true rfl (hrest _ (by simp_all))
  all_goals simp [h]

theorem decodeFamilyE_eq_invalid_iff (w : Word) : decodeFamilyE w = .invalid w ↔ fieldKk w ∉ [0x9E#8, 0xA1#8] := by
  unfold decodeFamilyE
  split <;> simp_all

theorem decodeFamilyF_eq_invalid_iff (w : Word) :
    decodeFamilyF w = .invalid w ↔
      fieldKk w ∉ [0x07#8, 0x0A#8, 0x15#8, 0x18#8, 0x1E#8, 0x29#8, 0x33#8, 0x55#8, 0x65#8] := by
  unfold decodeFamilyF
  split <;> simp_all

/-- Settles O6, family by family: a family without a selector has no invalid word. -/
theorem invalidWordsAreExactlyThese : Obligations.InvalidWordsAreExactlyThese := by
  intro w
  rw [← decodeFamily8_eq_invalid_iff, ← decodeFamilyE_eq_invalid_iff, ← decodeFamilyF_eq_invalid_iff]
  unfold decode
  split <;> rename_i h
  case h_17 =>
    have hall : ∀ n : Nibble, n ∈ [0x0#4, 0x1#4, 0x2#4, 0x3#4, 0x4#4, 0x5#4, 0x6#4, 0x7#4, 0x8#4, 0x9#4, 0xA#4, 0xB#4,
      0xC#4, 0xD#4, 0xE#4, 0xF#4] := by decide
    exact absurd (hall (fieldN0 w)) (by simp_all)
  all_goals simp [h]

/-- Settles O1: twelve evaluations of the decoder. -/
theorem decodesWordsOfTheSpec : Obligations.DecodesWordsOfTheSpec := by
  unfold Obligations.DecodesWordsOfTheSpec
  decide

end Sys2Proof
end

section
/-! Which fault an instruction raises, said once (60_exceptions.md rules R180 to R186), and that every instruction answers:
it raises that fault before any write, or raises none and leaves the model's records alone. -/

namespace Sys2Proof.Machine

/-- An outcome is one next state at most. -/
theorem next_unique {o : Host.Outcome State Fault Refusal} {t t' : State} (h : o = .next t) (h' : o = .next t') : t = t' :=
  Host.Outcome.next.inj (h.symm.trans h')

/-- The fault of a data access to `n` bytes at `I`, where it leaves memory (R44, R47). -/
def State.rangeFault (s : State) (n : Nat) : Option Fault :=
  if inRange s.base n then none else some (.memoryOutOfBounds s.base n)

/-- The fault the instruction raises on `s`, the state of the execute phase, where it raises one. -/
def State.faultOf (s : State) (i : Instr) : Option Fault :=
  match i with
  | .ret => if s.stack = [] then some .invalidReturn else none
  | .callSubroutine _ => if s.stackFull then some (.stackOverflow (encode i)) else none
  | .draw rx ry n =>
    (s.rangeFault n.toNat).or
      (if drawOutOfBounds (s.reg rx).toNat (s.reg ry).toNat n.toNat then
        some (.displayOutOfBounds (s.reg rx).toNat (s.reg ry).toNat n.toNat) else none)
  | .storeBCD _ => s.rangeFault 3
  | .dumpRegisters rx | .loadRegisters rx => s.rangeFault (rx.toNat + 1)
  | .callMachineCode _ | .keyPressed _ | .keyNotPressed _ | .waitKey _ | .spriteAddressRegister _ =>
    some (.unsupportedOperation (encode i))
  | .clearDisplay | .jump _ | .skipIfRegEqConst _ _ | .skipIfRegNeqConst _ _ | .skipIfRegEqReg _ _ | .setRegConst _ _
  | .addRegConst _ _ | .copyReg _ _ | .orReg _ _ | .andReg _ _ | .xorReg _ _ | .addReg _ _ | .subReg _ _
  | .shiftRight _ _ | .reverseSubReg _ _ | .shiftLeft _ _ | .skipIfRegNeqReg _ _ | .setAddrRegConst _
  | .jumpPlusOffset _ | .setRegRandomMasked _ _ | .getDelayTimer _ | .setDelayTimer _ | .setSoundTimer _
  | .addAddressRegister _ => none

theorem rangeFault_eq_some {s : State} {n : Nat} (h : n ≠ 0) (hout : 4096 < s.I.toNat + n) :
    s.rangeFault n = some (.memoryOutOfBounds s.I.toNat n) := by
  have hr : ¬ inRange s.base n = true := by
    rw [inRange_iff, State.base]
    omega
  exact if_neg hr

theorem rangeFault_eq_none {s : State} {n : Nat} (h : n ≠ 0 → s.I.toNat + n ≤ 4096) : s.rangeFault n = none :=
  if_pos ((inRange_iff _ _).2 (or_iff_not_imp_left.2 h))

theorem memRead_of_rangeFault {s : State} {n : Nat} (h : s.rangeFault n = none) :
    s.memRead s.base n = .ok (s.mem.readBytes s.base n) :=
  if_pos (by simpa [State.rangeFault] using h)

theorem memRead_of_rangeFault_some {s : State} {n : Nat} {f : Fault} (h : s.rangeFault n = some f) :
    s.memRead s.base n = .error f := by
  obtain ⟨hr, ⟨⟩⟩ := Option.ite_none_left_eq_some.1 h
  exact if_neg hr

theorem storeAtBase_of_rangeFault {s : State} {bs : List Byte} (h : s.rangeFault bs.length = none) :
    storeAtBase bs s = .next { s with mem := s.mem.writeBytes s.base bs } := by
  have hr : inRange s.base bs.length = true := by simpa [State.rangeFault] using h
  simp [storeAtBase, State.memWrite, hr]

theorem storeAtBase_of_rangeFault_some {s : State} {bs : List Byte} {f : Fault} (h : s.rangeFault bs.length = some f) :
    storeAtBase bs s = .next (s.raise f) := by
  obtain ⟨hr, ⟨⟩⟩ := Option.ite_none_left_eq_some.1 h
  simp [storeAtBase, State.memWrite, hr, raised]

/-! The instructions that may raise a fault, where they raise none -/

theorem exec_ret {s : State} {v : Word} {rest : List Word} (h : s.stack = v :: rest) :
    exec .ret s = .next { s with stack := rest, pc := v } := by
  simp only [exec, execRet, pop_cons h]
  rfl

theorem exec_callSubroutine {s : State} {nnn : Addr12} (h : s.stackFull = false) :
    exec (.callSubroutine nnn) s = .next ((s.push s.pc).setPc (addrOfConst nnn)) := by
  simp [exec, execCallSubroutine, h]

theorem exec_draw {s : State} {rx ry : RegIx} {n : Nibble} (hr : s.rangeFault n.toNat = none)
    (hd : drawOutOfBounds (s.reg rx).toNat (s.reg ry).toNat n.toNat = false) :
    exec (.draw rx ry n) s =
      .next (s.composite (s.reg rx).toNat (s.reg ry).toNat (s.mem.readBytes s.base n.toNat)) := by
  simp [exec, execDraw, memRead_of_rangeFault hr, hd]

theorem exec_storeBCD {s : State} {rx : RegIx} (h : s.rangeFault 3 = none) :
    exec (.storeBCD rx) s = .next { s with mem := s.mem.writeBytes s.base (bcdDigits (s.reg rx)) } :=
  storeAtBase_of_rangeFault h

theorem exec_dumpRegisters {s : State} {rx : RegIx} (h : s.rangeFault (rx.toNat + 1) = none) :
    exec (.dumpRegisters rx) s = .next { s with mem := s.mem.writeBytes s.base (s.regsUpTo rx) } :=
  storeAtBase_of_rangeFault (by rw [regsUpTo_length, h])

theorem exec_loadRegisters {s : State} {rx : RegIx} (h : s.rangeFault (rx.toNat + 1) = none) :
    exec (.loadRegisters rx) s = .next (s.loadRegs (s.mem.readBytes s.base (rx.toNat + 1))) := by
  simp [exec, execLoadRegisters, memRead_of_rangeFault h]

/-! Every instruction: the one fault of `faultOf`, or none -/

/-- An instruction with a fault raises it and does nothing else (R188). -/
theorem exec_of_faultOf {i : Instr} {s : State} {f : Fault} (h : s.faultOf i = some f) : exec i s = .next (s.raise f) := by
  cases i
  case ret =>
    obtain ⟨hs, ⟨⟩⟩ := Option.ite_none_right_eq_some.1 h
    simp [exec, execRet, pop_nil hs, raised]
  case callSubroutine nnn =>
    obtain ⟨hf, ⟨⟩⟩ := Option.ite_none_right_eq_some.1 h
    exact if_pos hf
  case draw rx ry n =>
    obtain hr | ⟨hr, h⟩ := Option.or_eq_some_iff.1 h
    · simp [exec, execDraw, memRead_of_rangeFault_some hr, raised]
    · obtain ⟨hd, ⟨⟩⟩ := Option.ite_none_right_eq_some.1 h
      simp [exec, execDraw, memRead_of_rangeFault hr, hd, raised]
  case storeBCD => exact storeAtBase_of_rangeFault_some h
  case dumpRegisters rx => exact storeAtBase_of_rangeFault_some (by rwa [regsUpTo_length])
  case loadRegisters => simp [exec, execLoadRegisters, memRead_of_rangeFault_some h, raised]
  case callMachineCode | keyPressed | keyNotPressed | waitKey | spriteAddressRegister =>
    obtain rfl := Option.some.inj h
    rfl
  all_goals cases h

/-- An instruction without a fault answers a state with the same records of faults (R85). -/
theorem exec_of_faultOf_eq_none {i : Instr} {s : State} (h : s.faultOf i = none) :
    ∃ t, exec i s = .next t ∧ KeepsRecord s t := by
  cases i
  case ret =>
    obtain ⟨v, rest, hs⟩ := List.exists_cons_of_ne_nil (by simpa [State.faultOf] using h)
    exact ⟨_, exec_ret hs, rfl, rfl⟩
  case callSubroutine => exact ⟨_, exec_callSubroutine (by simpa [State.faultOf] using h), rfl, rfl⟩
  case draw =>
    obtain ⟨hr, hd⟩ := Option.or_eq_none_iff.1 h
    exact ⟨_, exec_draw hr (by simpa using hd), rfl, rfl⟩
  case storeBCD => exact ⟨_, exec_storeBCD h, rfl, rfl⟩
  case dumpRegisters => exact ⟨_, exec_dumpRegisters h, rfl, rfl⟩
  case loadRegisters => exact ⟨_, exec_loadRegisters h, rfl, rfl⟩
  case skipIfRegEqConst | skipIfRegNeqConst | skipIfRegEqReg | skipIfRegNeqReg =>
    exact ⟨_, rfl, by split <;> exact ⟨rfl, rfl⟩⟩
  case callMachineCode | keyPressed | keyNotPressed | waitKey | spriteAddressRegister => cases h
  all_goals exact ⟨_, rfl, rfl, rfl⟩

/-- A fault that `faultOf` names, or none and the records kept: all that the execute phase can do about faults. -/
theorem exec_faults (i : Instr) (s : State) :
    (∃ f, s.faultOf i = some f ∧ exec i s = .next (s.raise f)) ∨
      (s.faultOf i = none ∧ ∃ t, exec i s = .next t ∧ KeepsRecord s t) := by
  cases h : s.faultOf i with
  | some f => exact .inl ⟨f, rfl, exec_of_faultOf h⟩
  | none => exact .inr ⟨rfl, exec_of_faultOf_eq_none h⟩

theorem exec_answers (i : Instr) (s : State) : ∃ t, exec i s = .next t := by
  obtain ⟨f, -, he⟩ | ⟨-, t, ht, -⟩ := exec_faults i s
  · exact ⟨_, he⟩
  · exact ⟨t, ht⟩

theorem step_answers (s : State) : ∃ t, step s = .next t := by
  obtain ⟨-, h⟩ | ⟨-, -, w, -, -, h⟩ | ⟨-, w, i, -, -, -, h⟩ := step_cases s
  · exact ⟨_, h⟩
  · exact ⟨_, h⟩
  · rw [h]
    exact exec_answers i _

/-- Settles O10: every instruction answers, and a step that executes none raises. -/
theorem everyStepAnswers : Obligations.EveryStepAnswers := ⟨step_answers, exec_answers⟩

/-! Raising a fault -/

/-- Raising a fault changes nothing but the records (R187, R188). -/
theorem onlyRaises_raise (s : State) (f : Fault) : OnlyRaises f s (s.raise f) := by
  simp [OnlyRaises, Raises, KeepsRegsBut, KeepsCore, KeepsTimers, KeepsDisplay, KeepsMemory, KeepsOutside]

/-- An instruction with a fault raises it and does nothing else (R188). -/
theorem exec_onlyRaises {i : Instr} {s : State} {f : Fault} (h : s.faultOf i = some f) :
    ∃ t, exec i s = .next t ∧ OnlyRaises f s t :=
  ⟨s.raise f, exec_of_faultOf h, onlyRaises_raise s f⟩

end Sys2Proof.Machine
end

section
/-! The step (40_step.md rules R80 to R87): what it can do about faults, its precision, the model's records, and the
invariant of memory, pc, stack and record. -/

namespace Sys2Proof.Machine

/-! The step as a whole -/

/-- Settles O7: two bytes make one word only, so the word of the statement is the word fetched. -/
theorem stepRunsTheDecodedInstruction : Obligations.StepRunsTheDecodedInstruction := by
  intro s w i hpc hw hd
  have hword : wordOfBytes (s.mem.read s.pc.toNat) (s.mem.read (s.pc.toNat + 1)) = w :=
    BitVec.eq_of_toNat_eq (by rw [wordOfBytes_toNat, hw])
  exact step_of_op ((fetch_ok hpc).trans (congrArg Except.ok hword)) hd

/-- From an address an instruction can be fetched at, the advance does not wrap (R82). -/
theorem advance_pc_toNat {s : State} (h : s.pc.toNat ≤ 4094) : s.advance.pc.toNat = s.pc.toNat + 2 := by
  simp
  omega

/-- Settles O9: a raise on the advanced state. -/
theorem invalidWordFaultsAfterTheAdvance : Obligations.InvalidWordFaultsAfterTheAdvance := by
  intro s w hf hd
  have hpc : s.pc.toNat ≤ 4094 := by
    by_contra h
    cases hf.symm.trans (fetch_error (Nat.lt_of_not_le h))
  exact ⟨_, step_of_invalid hf hd, onlyRaises_raise _ _, advance_pc_toNat hpc⟩

/-- Everything a step can do about faults: none, one in the fetch, or one after the advance (R81, R83, R85). -/
theorem step_faults {s t : State} (h : step s = .next t) :
    (t.result = .ok ∧ t.firstFault = s.firstFault) ∨
      (4095 ≤ s.pc.toNat ∧ t = s.beginStep.raise (.memoryOutOfBounds s.pc.toNat 2)) ∨
      (s.pc.toNat ≤ 4094 ∧ ∃ f, t = s.beginStep.advance.raise f) := by
  obtain ⟨hpc, he⟩ | ⟨hpc, -, w, -, -, he⟩ | ⟨hpc, w, i, -, -, -, he⟩ := step_cases s
  · exact .inr (.inl ⟨hpc, next_unique h he⟩)
  · exact .inr (.inr ⟨hpc, _, next_unique h he⟩)
  · obtain ⟨f, -, hx⟩ | ⟨-, t', hx, hk⟩ := exec_faults i s.beginStep.advance
    · exact .inr (.inr ⟨hpc, f, next_unique h (he.trans hx)⟩)
    · obtain rfl := next_unique h (he.trans hx)
      exact .inl hk

/-- Settles O11: a step with a fault is one raise, before the advance or after it, and an advance moves pc alone. -/
theorem faultingStepsArePrecise : Obligations.FaultingStepsArePrecise := by
  intro s t f h hr
  obtain ⟨hok, -⟩ | ⟨hpc, rfl⟩ | ⟨hpc, f', rfl⟩ := step_faults h
  · cases hok.symm.trans hr
  · obtain rfl := Result.raised.inj hr
    obtain ⟨⟨-, hff⟩, hregs, hkept, hcore⟩ := onlyRaises_raise s.beginStep (.memoryOutOfBounds s.pc.toNat 2)
    exact ⟨hregs, hcore, hff, .inr ⟨hpc, hkept, rfl⟩⟩
  · obtain rfl := Result.raised.inj hr
    obtain ⟨⟨-, hff⟩, hregs, -, hcore⟩ := onlyRaises_raise s.beginStep.advance f'
    exact ⟨hregs, hcore, hff, .inl ⟨hpc, advance_pc_toNat hpc⟩⟩

/-- Settles O16: a step either keeps the record or raises, and a raise keeps a first fault that is there. -/
theorem firstFaultIsKept : Obligations.FirstFaultIsKept := by
  intro s t h
  obtain ⟨hok, hff⟩ | ⟨-, rfl⟩ | ⟨-, f, rfl⟩ := step_faults h
  · rw [hok, hff, Option.or_none]
  · rfl
  · rfl

/-! A fetch past memory -/

/-- Raising the same fault again changes nothing: the result is that fault, and the first fault is on record (R193). -/
theorem beginStep_raise_raise (s : State) (f : Fault) :
    (s.beginStep.raise f).beginStep.raise f = s.beginStep.raise f := by
  simp [State.raise, State.beginStep]

/-- From a state the step leaves as it is, every run stays there. -/
theorem run_of_step_self {t : State} (h : step t = .next t) (k : Nat) : core.run k t = .next t := by
  induction k with
  | zero => rfl
  | succ k ih => simpa [Host.Core.run, core, h] using ih

/-- Settles O8: the state a failed fetch leaves is one that the next failed fetch leaves as it is. -/
theorem fetchPastMemoryFaultsForEver : Obligations.FetchPastMemoryFaultsForEver := by
  intro s hpc
  have hstep : ∀ u : State, u.pc = s.pc → step u = .next (u.beginStep.raise (.memoryOutOfBounds s.pc.toNat 2)) := by
    intro u hu
    rw [← hu] at hpc ⊢
    exact step_of_fetch_error (fetch_error hpc)
  refine ⟨_, hstep s rfl, onlyRaises_raise s.beginStep _, fun k => ?_⟩
  have hself := hstep (s.beginStep.raise (.memoryOutOfBounds s.pc.toNat 2)) rfl
  rw [beginStep_raise_raise] at hself
  have hrun := run_of_step_self hself k
  simpa [Host.Core.run, core, hstep s rfl] using hrun

/-! The records are never read -/

/-- The state with another record of the first fault. -/
def State.withFirstFault (s : State) (ff : Option Fault) : State := { s with firstFault := ff }

theorem faultOf_withFirstFault (s : State) (ff : Option Fault) (i : Instr) :
    (s.withFirstFault ff).faultOf i = s.faultOf i := by
  cases i <;> rfl

theorem skipIf_withFirstFault {c : Bool} {s t : State} (ff : Option Fault) (h : skipIf c s = .next t) :
    skipIf c (s.withFirstFault ff) = .next (t.withFirstFault ff) := by
  cases h
  cases c <;> rfl

/-- The execute phase does not read the record of the first fault (R28). -/
theorem exec_withFirstFault {i : Instr} {s t : State} (ff : Option Fault) (h : exec i s = .next t) :
    ∃ ff', exec i (s.withFirstFault ff) = .next (t.withFirstFault ff') := by
  cases hf : s.faultOf i with
  | some f =>
    obtain rfl := next_unique h (exec_of_faultOf hf)
    exact ⟨ff.or (some f), exec_of_faultOf ((faultOf_withFirstFault s ff i).trans hf)⟩
  | none =>
    refine ⟨ff, ?_⟩
    cases i
    case ret =>
      obtain ⟨v, rest, hs⟩ := List.exists_cons_of_ne_nil (by simpa [State.faultOf] using hf)
      obtain rfl := next_unique h (exec_ret hs)
      exact exec_ret hs
    case callSubroutine =>
      have hs : s.stackFull = false := by simpa [State.faultOf] using hf
      obtain rfl := next_unique h (exec_callSubroutine hs)
      exact exec_callSubroutine hs
    case draw rx ry n =>
      obtain ⟨hr, hd⟩ := Option.or_eq_none_iff.1 hf
      replace hd := by simpa using hd
      obtain rfl := next_unique h (exec_draw hr hd)
      exact exec_draw hr hd
    case storeBCD =>
      obtain rfl := next_unique h (exec_storeBCD hf)
      exact exec_storeBCD hf
    case dumpRegisters =>
      obtain rfl := next_unique h (exec_dumpRegisters hf)
      exact exec_dumpRegisters hf
    case loadRegisters =>
      obtain rfl := next_unique h (exec_loadRegisters hf)
      exact exec_loadRegisters hf
    case skipIfRegEqConst | skipIfRegNeqConst | skipIfRegEqReg | skipIfRegNeqReg =>
      exact skipIf_withFirstFault ff h
    case callMachineCode | keyPressed | keyNotPressed | waitKey | spriteAddressRegister => cases hf
    all_goals
      cases h
      rfl

theorem step_withFirstFault {s t : State} (ff : Option Fault) (h : step s = .next t) :
    ∃ ff', step (s.withFirstFault ff) = .next (t.withFirstFault ff') := by
  obtain ⟨hpc, he⟩ | ⟨-, -, w, hf, hd, he⟩ | ⟨-, w, i, hf, hd, -, he⟩ := step_cases s
  · obtain rfl := next_unique h he
    exact ⟨_, step_of_fetch_error (fetch_error hpc)⟩
  · obtain rfl := next_unique h he
    exact ⟨_, step_of_invalid hf hd⟩
  · obtain ⟨ff', hx⟩ := exec_withFirstFault ff (he.symm.trans h)
    exact ⟨ff', (step_of_op (s := s.withFirstFault ff) hf hd).trans hx⟩

/-- Settles O15: a step begins by setting its result, so only the record of the first fault is left to read. -/
theorem stepsNeverReadTheRecords : Obligations.StepsNeverReadTheRecords := by
  intro s t r ff h
  obtain ⟨ff', hx⟩ := step_withFirstFault ff h
  exact ⟨_, hx, rfl, rfl⟩

/-! The invariant -/

/-- The execute phase begins in a state that meets the invariant, with pc as a call pushes it (R82). -/
theorem inv_beginStep_advance {s : State} (h : s.Inv) (hpc : s.pc.toNat ≤ 4094) :
    s.beginStep.advance.Inv ∧ 2 ≤ s.beginStep.advance.pc.toNat ∧ s.beginStep.advance.pc.toNat ≤ 4096 := by
  have hadv : s.beginStep.advance.pc.toNat = s.pc.toNat + 2 := advance_pc_toNat hpc
  have hrecord : ∀ f, s.beginStep.advance.result = .raised f → s.beginStep.advance.firstFault ≠ none := nofun
  exact ⟨⟨h.mem, by omega, h.entries, h.depth, hrecord⟩, by omega, by omega⟩

/-- Raising a fault keeps the invariant: the fault is put on record (R193). -/
theorem inv_raise {s : State} (h : s.Inv) (f : Fault) : (s.raise f).Inv :=
  ⟨h.mem, h.pc, h.entries, h.depth, fun _ _ => by simp⟩

theorem inv_setPc {s : State} (h : s.Inv) {v : Word} (hv : v.toNat ≤ 4350) : (s.setPc v).Inv :=
  ⟨h.mem, hv, h.entries, h.depth, h.record⟩

/-- A block written inside memory keeps the invariant (R23, R46). -/
theorem inv_writeBytes {s : State} (h : s.Inv) {a : Nat} {bs : List Byte} (ha : a + bs.length ≤ 4096) :
    State.Inv { s with mem := s.mem.writeBytes a bs } :=
  ⟨wf_writeBytes bs ha h.mem, h.pc, h.entries, h.depth, h.record⟩

/-- A call where the stack is not full: one entry more, which is pc (R20, R93). -/
theorem inv_push {s : State} (h : s.Inv) (hlo : 2 ≤ s.pc.toNat) (hhi : s.pc.toNat ≤ 4096) (hs : s.stackFull = false) :
    (s.push s.pc).Inv := by
  have hroom : ∀ d, s.stackDepth = some d → s.stack.length < d := by
    intro d hd
    by_contra hfull
    have := (stackFull_iff s).2 ⟨d, hd, Nat.le_of_not_lt hfull⟩
    simp [hs] at this
  exact ⟨h.mem, h.pc, List.forall_mem_cons.2 ⟨⟨hlo, hhi⟩, h.entries⟩, hroom, h.record⟩

/-- A return: one entry fewer, and pc is an entry (R90). -/
theorem inv_pop {s : State} (h : s.Inv) {v : Word} {rest : List Word} (hs : s.stack = v :: rest) :
    State.Inv { s with stack := rest, pc := v } := by
  have hentries := h.entries
  rw [hs, List.forall_mem_cons] at hentries
  obtain ⟨⟨-, hv⟩, hrest⟩ := hentries
  refine ⟨h.mem, Nat.le_trans hv (by decide), hrest, fun d hd => ?_, h.record⟩
  have hlen := h.depth d hd
  rw [hs, List.length_cons] at hlen
  exact Nat.le_of_succ_le hlen

/-- Every effect of the execute phase keeps the invariant. -/
theorem Effect.inv {i : Instr} {s t : State} (he : Effect i s t) (h : s.Inv) (hlo : 2 ≤ s.pc.toNat)
    (hhi : s.pc.toNat ≤ 4096) : t.Inv := by
  cases he with
  | raises f => exact inv_raise h f
  | jumps nnn => exact inv_setPc h (by rw [addrOfConst_toNat]; omega)
  | jumpsPlus nnn => exact inv_setPc h (by rw [addrPlus_toNat]; omega)
  | skips => exact inv_setPc h (by simp; omega)
  | calls nnn _ hs => exact inv_setPc (inv_push h hlo hhi hs) (by rw [addrOfConst_toNat]; omega)
  | returns v rest _ hs => exact inv_pop h hs
  | storesDigits rx bs _ hl hr => exact inv_writeBytes h (by omega)
  | dumps rx bs _ hl hr => exact inv_writeBytes h (by omega)
  | stays => exact h
  | flagged | register | random | addr | delay | sound | clears | draws | loads =>
    exact ⟨h.mem, h.pc, h.entries, h.depth, h.record⟩

/-- Settles O12: a raise keeps the invariant, and so does every effect of the execute phase on the advanced state. -/
theorem everyStepKeepsTheInvariant : Obligations.EveryStepKeepsTheInvariant := by
  intro s t h hs
  have hbegin : s.beginStep.Inv := ⟨h.mem, h.pc, h.entries, h.depth, nofun⟩
  obtain ⟨-, he⟩ | ⟨hpc, -, w, -, -, he⟩ | ⟨hpc, w, i, -, -, -, he⟩ := step_cases s
  · obtain rfl := next_unique hs he
    exact inv_raise hbegin _
  · obtain rfl := next_unique hs he
    exact inv_raise (inv_beginStep_advance h hpc).1 _
  · obtain ⟨hinv, hlo, hhi⟩ := inv_beginStep_advance h hpc
    exact (exec_effect (he.symm.trans hs)).inv hinv hlo hhi

end Sys2Proof.Machine
end

section
/-! Reset and the host's operations (70_reset_and_hazards.md rules R210 to R219; 10_state.md section 11). -/

namespace Sys2Proof.Machine

/-! The state after reset -/

/-- Settles O13: memory and stack are empty, pc is 512 and no fault is raised. -/
theorem resetMeetsTheInvariant : Obligations.ResetMeetsTheInvariant :=
  ⟨reset_mem_wf, by decide, nofun, nofun, nofun⟩

/-- Every register of a Reset state is zero (R29). -/
theorem cleared_reg (c : ResetConfig) (r : RegIx) : (State.cleared c).reg r = 0x00#8 :=
  Vector.getElem_replicate r.isLt

/-- Settles O17: the default Reset is the cleared state, every field a constant. -/
theorem resetStateIsAsListed : Obligations.ResetStateIsAsListed :=
  ⟨cleared_reg {}, rfl, rfl, rfl, rfl, rfl, fun _ => rfl, pixel_clear, rfl, rfl⟩

/-! Reset with arguments -/

/-- A Reset state is in range of the invariant as soon as its pc is (R210). -/
theorem cleared_inv {c : ResetConfig} (h : c.initialPc.toNat ≤ 4350) : (State.cleared c).Inv :=
  ⟨wf_filled c.fill, h, nofun, fun _ _ => Nat.zero_le _, nofun⟩

/-- A HostWrite keeps the invariant, whether it is carried out or not (R214). -/
theorem hostWrite_inv {s : State} (h : s.Inv) (offset : Nat) (bytes : List Byte) : (s.hostWrite offset bytes).1.Inv := by
  obtain hout | hfits := Nat.lt_or_ge 4096 (offset + bytes.length)
  · rwa [hostWrite_error s hout]
  · rw [hostWrite_ok s hfits]
    exact inv_writeBytes h hfits

theorem launch_inv {c : ResetConfig} (h : c.initialPc.toNat ≤ 4350) : (State.launch c).1.Inv := by
  obtain ⟨-, he⟩ | ⟨image, -, ⟨hfits, -, he⟩ | ⟨-, he⟩⟩ := launch_cases c <;> rw [he]
  · exact cleared_inv h
  · exact inv_writeBytes (cleared_inv h) hfits
  · exact cleared_inv h

/-- Settles O14, operation by operation. -/
theorem hostOperationsKeepTheInvariant : Obligations.HostOperationsKeepTheInvariant := by
  intro op s h hpc
  cases op with
  | reset c => exact launch_inv (hpc c rfl)
  | write offset bytes => exact hostWrite_inv h offset bytes
  | step =>
    obtain ⟨t, ht⟩ := step_answers s
    simp only [hostDo, ht]
    exact everyStepKeepsTheInvariant s t h ht
  | setDelay | setSound => exact ⟨h.mem, h.pc, h.entries, h.depth, h.record⟩
  | getDelay | getSound | readDisplay => exact h

/-- The image of `c` is loaded: there is none, or it lies inside memory, where for one byte at 4095 the free value decides
(R210, R212). -/
def ImageFits (c : ResetConfig) : Prop :=
  c.program = none ∨ (c.initialPc.toNat + (c.program.getD []).length ≤ 4096 ∧
    (c.initialPc.toNat = 4095 → (c.program.getD []).length = 1 → Config.loadsAtLastAddress = true))

/-- A Reset is the cleared state, with the image in it where the image fits, and the answer says whether it does (R210). -/
theorem launch_eq (c : ResetConfig) :
    (ImageFits c ∧ State.launch c =
        ({ State.cleared c with mem := (Memory.filled c.fill).writeBytes c.initialPc.toNat (c.program.getD []) }, true)) ∨
      (¬ ImageFits c ∧ State.launch c = (State.cleared c, false)) := by
  obtain ⟨hp, he⟩ | ⟨image, hp, ⟨hlen, hadm, he⟩ | ⟨hnot, he⟩⟩ := launch_cases c
  · exact .inl ⟨.inl hp, by rw [he, hp]; rfl⟩
  · refine .inl ⟨.inr ?_, by rw [he, hp]; rfl⟩
    rw [hp]
    exact ⟨hlen, (imageAdmitted_iff _ _).1 hadm⟩
  · refine .inr ⟨?_, he⟩
    rw [imageAdmitted_iff] at hnot
    simpa [ImageFits, hp] using hnot

/-- A byte of memory after a block write: the block's own byte inside it, the old byte outside it (R46). -/
theorem read_writeBytes_eq_ite (m : Memory) (a : Nat) (bs : List Byte) (a' : Nat) :
    (m.writeBytes a bs).read a' = if a ≤ a' ∧ a' < a + bs.length then bs.getD (a' - a) 0x00#8 else m.read a' := by
  rw [read_writeBytes]
  by_cases hin : a ≤ a' ∧ a' - a < bs.length
  · rw [dif_pos hin, if_pos (by omega), List.getD_eq_getElem _ _ hin.2]
  · rw [dif_neg hin, if_neg (by omega)]

/-- Settles O18: memory is FILL, with the image written over it where it fits. -/
theorem launchFillsThenLoads : Obligations.LaunchFillsThenLoads := by
  intro c s image fits
  obtain ⟨(hf : fits), he⟩ | ⟨(hf : ¬ fits), he⟩ := launch_eq c
  · simp only [s, image, he]
    refine ⟨iff_of_true trivial hf, fun a ha => ?_, rfl, rfl, rfl, cleared_reg c, rfl, rfl, rfl, rfl, pixel_clear, rfl, rfl⟩
    simp only [hf, true_and, read_writeBytes_eq_ite, read_filled c.fill ha]
  · simp only [s, image, he]
    refine ⟨iff_of_false nofun hf, fun a ha => ?_, rfl, rfl, rfl, cleared_reg c, rfl, rfl, rfl, rfl, pixel_clear, rfl, rfl⟩
    rw [if_neg fun hin => hf hin.1]
    exact read_filled c.fill ha

/-! The timers -/

/-- Settles O20: a tick is the subtraction of natural numbers, which stops at zero. -/
theorem timerOperationsSetAndTick : Obligations.TimerOperationsSetAndTick := by
  have htick : ∀ b : Byte, (tickByte b).toNat = max b.toNat 1 - 1 := by
    intro b
    simp [tickByte]
    omega
  exact fun s v => ⟨rfl, rfl, ⟨htick s.DT, htick s.ST⟩, rfl⟩

end Sys2Proof.Machine
end

section
/-! Control transfer and skips as statements about one instruction (41_flow.md, 42_skip.md). -/

namespace Sys2Proof.Machine

/-! Jumps -/

/-- Settles O23: the sum is at most 4095 + 255, so it fits 16 bits. -/
theorem jumpPlusOffsetAddsV0 : Obligations.JumpPlusOffsetAddsV0 := by
  intro nnn s
  have hsum : (addrPlus nnn (s.reg 0x0#4)).toNat = nnn.toNat + (s.reg 0x0#4).toNat := addrPlus_toNat nnn _
  refine ⟨_, rfl, hsum, ?_, onlyPc_setPc s _⟩
  rw [setPc_pc, hsum]
  omega

/-- Settles O27: the jump overwrites the advance, and writes the address pc had. -/
theorem selfJumpIsAFixedPoint : Obligations.SelfJumpIsAFixedPoint := by
  intro s nnn hpc hat
  rw [step_of_holdsAtPc hat (decode_jump nnn), exec_jump, advance_setPc, setPc_addrOfConst_of_eq (s := s.beginStep) hpc]
  rfl

/-! Calls and returns -/

/-- Only pc and the call stack may differ. -/
def OnlyPcAndStack (s t : State) : Prop :=
  KeepsRegsBut [] s t ∧ t.I = s.I ∧ KeepsTimers s t ∧ KeepsDisplay s t ∧ KeepsMemory s t ∧ KeepsOutside s t ∧
    KeepsRecord s t

/-- A write of pc and the stack changes nothing else (R16, R19). -/
theorem onlyPcAndStack_update (s : State) (v : Word) (st : List Word) :
    OnlyPcAndStack s { s with stack := st, pc := v } :=
  ⟨fun _ _ => rfl, rfl, ⟨rfl, rfl⟩, fun _ _ => rfl, fun _ => rfl, ⟨rfl, rfl⟩, rfl, rfl⟩

/-- The stack is not full where it is unbounded or below its depth (R20, R93). -/
theorem stackFull_eq_false {s : State} (h : ∀ d, s.stackDepth = some d → s.stack.length < d) : s.stackFull = false := by
  rw [Bool.eq_false_iff, ne_eq, stackFull_iff]
  rintro ⟨d, hd, hfull⟩
  exact Nat.not_le.2 (h d hd) hfull

/-- Settles O24: a call writes pc and the stack, or raises before it writes. -/
theorem callPushesTheReturnAddress : Obligations.CallPushesTheReturnAddress := by
  refine fun nnn s => ⟨fun hroom => ?room, fun d hd hfull => ?full⟩
  case room =>
    exact ⟨_, exec_callSubroutine (stackFull_eq_false hroom), rfl, addrOfConst_toNat nnn, onlyPcAndStack_update s _ _⟩
  case full => exact exec_onlyRaises (if_pos ((stackFull_iff s).2 ⟨d, hd, hfull⟩))

/-- Settles O25: a return writes pc and the stack, or raises. -/
theorem returnPopsIntoPc : Obligations.ReturnPopsIntoPc :=
  fun s => ⟨fun v rest hs => ⟨_, exec_ret hs, rfl, rfl, onlyPcAndStack_update s v rest⟩, fun hs => exec_onlyRaises (if_pos hs)⟩

/-- Settles O26: the entry the call pushes is the advanced pc, and the Return takes that entry. -/
theorem returnAfterCallRestoresPc : Obligations.ReturnAfterCallRestoresPc := by
  intro s nnn hat hroom
  have hcall := exec_callSubroutine (s := s.beginStep.advance) (nnn := nnn) (stackFull_eq_false hroom)
  rw [← step_of_holdsAtPc hat (decodeOfEncodeIsTheInstruction _ rfl)] at hcall
  refine ⟨_, hcall, addrOfConst_toNat nnn, fun u hu hret => ?_⟩
  have hreturn := exec_ret (s := u.beginStep.advance) (v := s.beginStep.advance.pc) (rest := s.stack) hu
  rw [← step_of_holdsAtPc hret rfl] at hreturn
  exact ⟨_, hreturn, advance_pc_toNat (s := s.beginStep) hat.1, rfl, rfl⟩

/-! Skips -/

/-- A skip writes pc alone: 2 further where its condition holds (R100). -/
theorem SkipsWhen.exec_onlyPc {i : Instr} {c : Prop} {s : State} (h : SkipsWhen i c s) :
    ∃ t, exec i s = .next t ∧ OnlyPc s t ∧ (c → t.pc = s.pc + 2#16) ∧ (¬ c → t.pc = s.pc) := by
  obtain ⟨b, hb, he⟩ := h.exec_eq
  rw [he, ← hb]
  cases b
  case false => exact ⟨s, rfl, onlyPc_setPc s s.pc, nofun, fun _ => rfl⟩
  case true => exact ⟨s.advance, rfl, onlyPc_setPc s _, fun _ => rfl, fun h => absurd rfl h⟩

/-- Families 5 and 9 fix the last nibble (R66, R73). -/
theorem decode_wordXY_5 (rx ry : RegIx) (n : Nibble) :
    decode (wordXY 0x5#4 rx ry n) = if n = 0x0#4 then .op (.skipIfRegEqReg rx ry) else .invalid (wordXY 0x5#4 rx ry n) := by
  simp [decode]

theorem decode_wordXY_9 (rx ry : RegIx) (n : Nibble) :
    decode (wordXY 0x9#4 rx ry n) = if n = 0x0#4 then .op (.skipIfRegNeqReg rx ry) else .invalid (wordXY 0x9#4 rx ry n) := by
  simp [decode]

/-- Settles O28: the four skips are the common rule of R100 on their own conditions. -/
theorem skipsAdvancePcIffTheConditionHolds : Obligations.SkipsAdvancePcIffTheConditionHolds := by
  refine fun rx ry kk s => ⟨decodeOfEncodeIsTheInstruction (.skipIfRegEqConst rx kk) rfl,
    decodeOfEncodeIsTheInstruction (.skipIfRegNeqConst rx kk) rfl, decode_wordXY_5 rx ry, decode_wordXY_9 rx ry,
    SkipsWhen.exec_onlyPc (.inl ⟨rx, kk, rfl, Iff.rfl⟩), ?neqConst,
    SkipsWhen.exec_onlyPc (.inr (.inr (.inl ⟨rx, ry, rfl, Iff.rfl⟩))), ?neqReg⟩
  case neqConst =>
    obtain ⟨t, he, hframe, hskip, hstay⟩ := SkipsWhen.exec_onlyPc (s := s) (.inr (.inl ⟨rx, kk, rfl, Iff.rfl⟩))
    exact ⟨t, he, hframe, hskip, fun heq => hstay (not_not_intro heq)⟩
  case neqReg =>
    obtain ⟨t, he, hframe, hskip, hstay⟩ := SkipsWhen.exec_onlyPc (s := s) (.inr (.inr (.inr ⟨rx, ry, rfl, Iff.rfl⟩)))
    exact ⟨t, he, hframe, hskip, fun heq => hstay (not_not_intro heq)⟩

end Sys2Proof.Machine
end

section
/-! The constant loads and the ALU family (43_const.md, 44_alu.md): one register write, or a flag and a result. -/

namespace Sys2Proof.Machine

/-! Constants and the Random Source -/

/-- Settles O31: one register write, of the wrapped sum. -/
theorem addRegConstWrapsWithoutFlag : Obligations.AddRegConstWrapsWithoutFlag := by
  refine fun rx kk s => ⟨_, rfl, ?_, onlyRegs_setReg s rx _⟩
  rw [setReg_reg_same, byteAdd_toNat]

/-- Settles O33: one request, then one register write. -/
theorem randomMaskedMakesOneRequest : Obligations.RandomMaskedMakesOneRequest := by
  intro rx kk s
  have hreg : ∀ v, (s.randByte.2.setReg rx v).reg rx = v := setReg_reg_same _ rx
  have hmask : Config.randByte s.rand.seed s.rand.requests &&& kk &&& ~~~kk = 0x00#8 := by
    rw [BitVec.and_assoc, BitVec.and_not_self]
    exact BitVec.and_zero
  obtain ⟨hregs, hpc, ⟨hI, hstack, htimers, hdisplay, hmem, -, hdepth⟩, hrecord⟩ :=
    onlyRegs_setReg s.randByte.2 rx (s.randByte.1 &&& kk)
  exact ⟨_, rfl, hreg _, by rw [hreg, randByte_byte, hmask], rfl, rfl, hdepth, hregs, hpc, hI, hstack, htimers, hdisplay,
    hmem, hrecord⟩

/-! Copy and logic -/

/-- Settles O34: each is one register write. -/
theorem copyAndLogicWriteTheDestination : Obligations.CopyAndLogicWriteTheDestination := by
  refine fun rx ry s => ⟨⟨_, rfl, setReg_reg_same s rx _, onlyRegs_setReg s rx _⟩,
    ⟨_, rfl, onlyRegs_setReg s rx _, fun k _ => ?or⟩, ⟨_, rfl, onlyRegs_setReg s rx _, fun k _ => ?and⟩,
    ⟨_, rfl, onlyRegs_setReg s rx _, fun k _ => ?xor⟩⟩
  case or => rw [setReg_reg_same, BitVec.getLsbD_or]
  case and => rw [setReg_reg_same, BitVec.getLsbD_and]
  case xor => rw [setReg_reg_same, BitVec.getLsbD_xor]

/-! A flag and a result -/

theorem flagByte_toNat (b : Bool) : (flagByte b).toNat = if b then 1 else 0 := by cases b <;> rfl

/-- All that a flag-writing ALU instruction leaves: the result in V[rx], the flag in VF unless VF is rx, nothing else
(R120, R130). -/
theorem writeFlagged_spec (s : State) (rx : RegIx) (b : Bool) (v : Byte) :
    (s.writeFlagged rx b v).reg rx = v ∧ (rx ≠ 0xF#4 → ((s.writeFlagged rx b v).reg 0xF#4).toNat = if b then 1 else 0) ∧
      OnlyRegs [rx, 0xF#4] s (s.writeFlagged rx b v) := by
  refine ⟨by simp [writeFlagged_reg], fun h => ?flag, fun r hr => ?others, rfl,
    ⟨rfl, rfl, ⟨rfl, rfl⟩, fun _ _ => rfl, fun _ => rfl, rfl, rfl⟩, rfl, rfl⟩
  case flag => rw [writeFlagged_reg, if_neg h.symm, if_pos rfl, flagByte_toNat]
  case others =>
    obtain ⟨hrx, hvf⟩ : r ≠ rx ∧ r ≠ vf := by simpa using hr
    rw [writeFlagged_reg, if_neg hrx, if_neg hvf]

/-- Settles O35: the carry says that the sum passes 255. -/
theorem addRegGivesSumAndCarry : Obligations.AddRegGivesSumAndCarry := by
  intro rx ry s
  obtain ⟨hresult, hflag, hframe⟩ :=
    writeFlagged_spec s rx (carryAdd (s.reg rx) (s.reg ry)) (byteAdd (s.reg rx) (s.reg ry))
  refine ⟨_, rfl, by rw [hresult, byteAdd_toNat], fun h => ?_, hframe⟩
  simpa [carryAdd] using hflag h

/-- The wrapped difference over the integers, with the non-negative remainder (R131). -/
theorem byteSub_toNat_int (a b : Byte) : ((byteSub a b).toNat : Int) = ((a.toNat : Int) - (b.toNat : Int)) % 256 := by
  rw [byteSub_toNat]
  split <;> omega

/-- What a subtraction of `b` from `a` into V[rx] leaves (R126, R128). -/
theorem writeFlagged_byteSub_spec (s : State) (rx : RegIx) (a b : Byte) :
    (((s.writeFlagged rx (noBorrow a b) (byteSub a b)).reg rx).toNat : Int) = ((a.toNat : Int) - (b.toNat : Int)) % 256 ∧
      (rx ≠ 0xF#4 →
        ((s.writeFlagged rx (noBorrow a b) (byteSub a b)).reg 0xF#4).toNat = if a.toNat ≥ b.toNat then 1 else 0) ∧
      OnlyRegs [rx, 0xF#4] s (s.writeFlagged rx (noBorrow a b) (byteSub a b)) := by
  obtain ⟨hresult, hflag, hframe⟩ := writeFlagged_spec s rx (noBorrow a b) (byteSub a b)
  exact ⟨by rw [hresult, byteSub_toNat_int], fun h => by simpa [noBorrow] using hflag h, hframe⟩

/-- Settles O36: both subtractions are the one of `writeFlagged_byteSub_spec`, with the operands exchanged. -/
theorem subtractionsGiveDifferenceAndNoBorrow : Obligations.SubtractionsGiveDifferenceAndNoBorrow :=
  fun rx ry s => ⟨⟨_, rfl, writeFlagged_byteSub_spec s rx (s.reg rx) (s.reg ry)⟩,
    ⟨_, rfl, writeFlagged_byteSub_spec s rx (s.reg ry) (s.reg rx)⟩⟩

/-- The bit a right shift drops is the remainder by 2 (R127). -/
theorem bitOutRight_eq (a : Byte) : (if bitOutRight a then 1 else 0) = a.toNat % 2 := by
  have hmod := Nat.mod_two_eq_zero_or_one a.toNat
  simp only [bitOutRight, BitVec.getLsbD, Nat.testBit_zero, decide_eq_true_eq]
  split <;> omega

/-- The bit a left shift drops is the quotient by 128 (R129). -/
theorem bitOutLeft_eq (a : Byte) : (if bitOutLeft a then 1 else 0) = a.toNat / 128 := by
  have hlt := a.isLt
  simp only [bitOutLeft, BitVec.getLsbD, Nat.testBit_eq_decide_div_mod_eq, decide_eq_true_eq]
  split <;> omega

/-- Settles O37: the bit shifted out is the remainder by 2, or the quotient by 128. -/
theorem shiftsMoveOneBitOut : Obligations.ShiftsMoveOneBitOut := by
  refine fun rx ry s => ⟨⟨_, rfl, ?right⟩, ⟨_, rfl, ?left⟩⟩
  case right =>
    obtain ⟨hresult, hflag, hframe⟩ := writeFlagged_spec s rx (bitOutRight (s.reg rx)) (byteShr (s.reg rx))
    exact ⟨by rw [hresult, byteShr_toNat], fun h => by rw [hflag h, bitOutRight_eq], hframe⟩
  case left =>
    obtain ⟨hresult, hflag, hframe⟩ := writeFlagged_spec s rx (bitOutLeft (s.reg rx)) (byteShl (s.reg rx))
    exact ⟨by rw [hresult, byteShl_toNat, Nat.mul_comm], fun h => by rw [hflag h, bitOutLeft_eq], hframe⟩

/-! Flags -/

/-- VF after a flag-writing ALU instruction into another register (R13). -/
theorem writeFlagged_vf_zero_or_one (s : State) {rx : RegIx} (b : Bool) (v : Byte) (h : rx ≠ 0xF#4) :
    (s.writeFlagged rx b v).reg 0xF#4 = 0x00#8 ∨ (s.writeFlagged rx b v).reg 0xF#4 = 0x01#8 := by
  rw [writeFlagged_reg, if_neg h.symm, if_pos rfl]
  exact flagByte_zero_or_one b

/-- A draw that raises no fault composites (R141). -/
theorem exec_draw_of_result_ok {rx ry : RegIx} {n : Nibble} {s t : State} (h : exec (.draw rx ry n) s = .next t)
    (hr : t.result = .ok) : ∃ x y rows, t = s.composite x y rows := by
  cases hf : s.faultOf (.draw rx ry n) with
  | some f =>
    obtain rfl := next_unique h (exec_of_faultOf hf)
    cases hr
  | none =>
    obtain ⟨hmem, hgrid⟩ := Option.or_eq_none_iff.1 hf
    exact ⟨_, _, _, next_unique h (exec_draw hmem (by simpa using hgrid))⟩

/-- Settles O38: VF received a flag byte, which is 0 or 1. -/
theorem flagsAreZeroOrOne : Obligations.FlagsAreZeroOrOne := by
  rintro i s t - (⟨rx, ry, hrx, rfl | rfl | rfl | rfl | rfl⟩ | ⟨rx, ry, n, rfl⟩) h hr
  case inr =>
    obtain ⟨x, y, rows, rfl⟩ := exec_draw_of_result_ok h hr
    rw [composite_reg, if_pos rfl]
    exact flagByte_zero_or_one _
  all_goals
    cases h
    exact writeFlagged_vf_zero_or_one s _ _ hrx

end Sys2Proof.Machine
end

section
/-! The display instructions (45_display.md) and the five rejected ones (60_exceptions.md rule R184). -/

namespace Sys2Proof.Machine

/-! ClearDisplay -/

/-- Settles O39: one write of the framebuffer. -/
theorem clearDisplayUnsetsEveryPixel : Obligations.ClearDisplayUnsetsEveryPixel :=
  fun s => ⟨{ s with FB := Display.clear }, rfl, pixel_clear, fun _ _ => rfl, rfl, rfl, rfl, ⟨rfl, rfl⟩, fun _ => rfl,
    ⟨rfl, rfl⟩, rfl, rfl⟩

/-! A draw inside memory and the grid -/

/-- The rows lie in memory and the sprite in the grid, or there is no row at all (R141, R145). -/
def DrawFits (rx ry : RegIx) (n : Nibble) (s : State) : Prop :=
  n.toNat ≠ 0 → s.I.toNat + n.toNat ≤ 4096 ∧ (s.reg rx).toNat + 8 ≤ 64 ∧ (s.reg ry).toNat + n.toNat ≤ 32

/-- The bit of the sprite of a draw at a pixel (R144). -/
def drawnBit (rx ry : RegIx) (n : Nibble) (s : State) : Nat → Nat → Bool :=
  spriteAt s.mem s.I.toNat (s.reg rx).toNat (s.reg ry).toNat n.toNat

/-- Only pixels and VF may differ. -/
def OnlyScreen (s t : State) : Prop :=
  KeepsRegsBut [0xF#4] s t ∧ t.pc = s.pc ∧ t.I = s.I ∧ t.stack = s.stack ∧ KeepsTimers s t ∧ KeepsMemory s t ∧
    KeepsOutside s t ∧ KeepsRecord s t

theorem onlyScreen_composite (s : State) (x y : Nat) (rows : List Byte) : OnlyScreen s (s.composite x y rows) := by
  have hregs : KeepsRegsBut [0xF#4] s (s.composite x y rows) := fun r hr => by
    rw [composite_reg, if_neg (List.ne_of_not_mem_cons hr)]
  exact ⟨hregs, rfl, rfl, rfl, ⟨rfl, rfl⟩, fun _ => rfl, ⟨rfl, rfl⟩, rfl, rfl⟩

/-- A draw that fits: the sprite is XORed in, VF tells whether a set bit met a set pixel, nothing else changes (R141, R143). -/
theorem exec_draw_spec {rx ry : RegIx} {n : Nibble} {s : State} (h : DrawFits rx ry n s) :
    ∃ t b, exec (.draw rx ry n) s = .next t ∧
      (∀ px py, t.FB.pixel px py = (s.FB.pixel px py ^^ drawnBit rx ry n s px py)) ∧ t.reg 0xF#4 = flagByte b ∧
      (b = true ↔ ∃ px py, drawnBit rx ry n s px py = true ∧ s.FB.pixel px py = true) ∧ OnlyScreen s t := by
  have hgrid : n.toNat ≠ 0 → (s.reg rx).toNat + 8 ≤ 64 ∧ (s.reg ry).toNat + n.toNat ≤ 32 := fun h0 => (h h0).2
  obtain ⟨hpixels, hcollides⟩ := composite_spec s _ _ s.base _ hgrid
  exact ⟨_, _, exec_draw (rangeFault_eq_none fun h0 => (h h0).1) ((drawOutOfBounds_eq_false _ _ _).2 hgrid), hpixels,
    composite_reg .., hcollides, onlyScreen_composite ..⟩

/-- Settles O40: the flag byte of the collision is 1 or 0. -/
theorem drawXorsTheSpriteIn : Obligations.DrawXorsTheSpriteIn := by
  intro rx ry n s h
  obtain ⟨t, b, he, hpixels, hvf, hcollides, hframe⟩ := exec_draw_spec (h : DrawFits rx ry n s)
  refine ⟨t, he, hpixels, fun hc => ?_, fun hc => ?_, hframe⟩
  · rw [hvf, hcollides.2 hc]
    rfl
  · rw [hvf, Bool.eq_false_of_not_eq_true (mt hcollides.1 hc)]
    rfl

/-! A draw outside -/

/-- Settles O41: `faultOf` asks for the rows before the grid (R189). -/
theorem drawRaisesMemoryBeforeDisplay : Obligations.DrawRaisesMemoryBeforeDisplay := by
  refine fun rx ry n s h0 => ⟨fun hmem => exec_onlyRaises ?memory, fun hmem hgrid => exec_onlyRaises ?display⟩
  case memory => rw [State.faultOf, rangeFault_eq_some h0 hmem, Option.some_or]
  case display =>
    have hout : drawOutOfBounds (s.reg rx).toNat (s.reg ry).toNat n.toNat = true := by
      rw [← Bool.not_eq_false, drawOutOfBounds_eq_false]
      omega
    rw [State.faultOf, rangeFault_eq_none fun _ => hmem, Option.none_or, if_pos hout]

/-! The same draw twice -/

theorem drawnBit_congr {rx ry : RegIx} (n : Nibble) {s u : State} (hI : u.I = s.I) (hx : u.reg rx = s.reg rx)
    (hy : u.reg ry = s.reg ry) (hm : KeepsMemory s u) : drawnBit rx ry n u = drawnBit rx ry n s := by
  funext px py
  rw [drawnBit, drawnBit, hI, hx, hy, spriteAt, spriteAt, hm]

/-- A byte that is not zero has a set bit. -/
theorem exists_getLsbD_of_ne_zero {v : Byte} (h : v ≠ 0x00#8) : ∃ k, k < 8 ∧ v.getLsbD k = true := by
  by_contra hnone
  refine h (BitVec.eq_of_getLsbD_eq fun k hk => ?_)
  rw [BitVec.getLsbD_zero]
  exact Bool.eq_false_of_not_eq_true fun hbit => hnone ⟨k, hk, hbit⟩

/-- A sprite has a set bit iff one of its rows is not zero (R144). -/
theorem exists_spriteAt_iff (m : Memory) (base x y h : Nat) :
    (∃ px py, spriteAt m base x y h px py = true) ↔ ∃ k, k < h ∧ m.read (base + k) ≠ 0x00#8 := by
  simp only [spriteAt, Bool.and_eq_true, decide_eq_true_eq]
  constructor
  · rintro ⟨px, py, ⟨⟨-, hlo⟩, hhi⟩, hbit⟩
    refine ⟨py - y, by omega, fun hzero => ?_⟩
    rw [hzero, BitVec.getLsbD_zero] at hbit
    cases hbit
  · rintro ⟨k, hk, hne⟩
    obtain ⟨j, hj, hbit⟩ := exists_getLsbD_of_ne_zero hne
    refine ⟨x + (7 - j), y + k, by omega, ?_⟩
    rwa [show y + k - y = k by omega, show 7 - (x + (7 - j) - x) = j by omega]

theorem flagByte_eq_one_iff (b : Bool) : flagByte b = 0x01#8 ↔ b = true := by cases b <;> decide

/-- Settles O42: a bit XORed in twice is gone, and on a clear screen the first draw leaves the sprite itself. -/
theorem drawTwiceCancelsOut : Obligations.DrawTwiceCancelsOut := by
  intro rx ry n s u h hI hx hy hm
  obtain ⟨t, b, he, hpixels, hvf, hcollides, -⟩ := exec_draw_spec (h : DrawFits rx ry n s)
  refine ⟨t, he, fun hFB => ?_⟩
  have hbits := drawnBit_congr n hI hx hy hm
  have hu : DrawFits rx ry n u := by rwa [DrawFits, hI, hx, hy]
  obtain ⟨v, b', he', hpixels', hvf', hcollides', -⟩ := exec_draw_spec hu
  rw [hbits, hFB] at hpixels' hcollides'
  refine ⟨v, he', fun px py => by rw [hpixels', hpixels, Bool.xor_assoc, Bool.xor_self, Bool.xor_false],
    fun hclear => ⟨?first, ?second⟩⟩
  case first =>
    have hb : b = false := by
      rw [← Bool.not_eq_true, hcollides]
      rintro ⟨px, py, -, hset⟩
      simp [hclear] at hset
    rw [hvf, hb]
    rfl
  case second =>
    rw [hvf', flagByte_eq_one_iff, hcollides']
    simp only [hpixels, hclear, Bool.false_xor, and_self]
    exact exists_spriteAt_iff s.mem _ _ _ _

/-! The rejected five -/

/-- Settles O43: their fault is raised on every path. -/
theorem unsupportedInstructionsRaise : Obligations.UnsupportedInstructionsRaise :=
  fun _ _ _ => ⟨exec_onlyRaises rfl, exec_onlyRaises rfl, exec_onlyRaises rfl, exec_onlyRaises rfl, exec_onlyRaises rfl⟩

end Sys2Proof.Machine
end

section
/-! The F family (47_misc.md): timers, the address register, and the transfers between registers and memory. -/

namespace Sys2Proof.Machine

/-! Timers and the address register -/

/-- Settles O45: one register write, or one write of a timer. -/
theorem timerInstructionsCopy : Obligations.TimerInstructionsCopy := by
  refine fun rx s => ⟨⟨_, rfl, setReg_reg_same s rx _, onlyRegs_setReg s rx _⟩, ⟨_, rfl, rfl, rfl, ?delay⟩,
    ⟨_, rfl, rfl, rfl, ?sound⟩⟩
  case delay | sound =>
    exact ⟨fun _ _ => rfl, rfl, rfl, rfl, fun _ _ => rfl, fun _ => rfl, ⟨rfl, rfl⟩, rfl, rfl⟩

/-- Settles O46: one write of I. -/
theorem addAddressRegisterWrapsWithoutFlag : Obligations.AddAddressRegisterWrapsWithoutFlag :=
  fun rx s => ⟨_, rfl, addrAdd_toNat s.I (s.reg rx), onlyAddr_setAddr s _⟩

/-! Stores inside memory -/

/-- Nothing but memory differs. -/
def OnlyMemory (s t : State) : Prop :=
  KeepsRegsBut [] s t ∧ t.pc = s.pc ∧ t.I = s.I ∧ t.stack = s.stack ∧ KeepsTimers s t ∧ KeepsDisplay s t ∧
    KeepsOutside s t ∧ KeepsRecord s t

theorem onlyMemory_update (s : State) (m : Memory) : OnlyMemory s { s with mem := m } :=
  ⟨fun _ _ => rfl, rfl, rfl, rfl, ⟨rfl, rfl⟩, fun _ _ => rfl, ⟨rfl, rfl⟩, rfl, rfl⟩

theorem exec_storeBCD_inside {s : State} (rx : RegIx) (h : s.I.toNat + 2 ≤ 4095) :
    exec (.storeBCD rx) s = .next { s with mem := s.mem.writeBytes s.I.toNat (bcdDigits (s.reg rx)) } :=
  exec_storeBCD (rangeFault_eq_none fun _ => by omega)

theorem exec_dumpRegisters_inside {s : State} {rx : RegIx} (h : s.I.toNat + rx.toNat ≤ 4095) :
    exec (.dumpRegisters rx) s = .next { s with mem := s.mem.writeBytes s.I.toNat (s.regsUpTo rx) } :=
  exec_dumpRegisters (rangeFault_eq_none fun _ => by omega)

theorem exec_loadRegisters_inside {s : State} {rx : RegIx} (h : s.I.toNat + rx.toNat ≤ 4095) :
    exec (.loadRegisters rx) s = .next (s.loadRegs (s.mem.readBytes s.I.toNat (rx.toNat + 1))) :=
  exec_loadRegisters (rangeFault_eq_none fun _ => by omega)

/-- The three digits as numbers (R165). -/
theorem bcdDigits_toNat (v : Byte) :
    ((bcdDigits v).getD 0 0x00#8).toNat = v.toNat / 100 ∧ ((bcdDigits v).getD 1 0x00#8).toNat = v.toNat / 10 % 10 ∧
      ((bcdDigits v).getD 2 0x00#8).toNat = v.toNat % 10 := by
  simp [bcdDigits]
  omega

/-- A byte of memory after a StoreBCD. -/
theorem read_writeBytes_bcdDigits_toNat (m : Memory) (a : Nat) (v : Byte) (a' : Nat) :
    ((m.writeBytes a (bcdDigits v)).read a').toNat =
      if a' = a then v.toNat / 100 else if a' = a + 1 then v.toNat / 10 % 10
      else if a' = a + 2 then v.toNat % 10 else (m.read a').toNat := by
  obtain ⟨hhundreds, htens, hones⟩ := bcdDigits_toNat v
  rw [read_writeBytes_eq_ite, bcdDigits_length]
  split
  · next hin =>
    obtain h | h | h : a' - a = 0 ∨ a' - a = 1 ∨ a' - a = 2 := by omega
    · rw [h, hhundreds, if_pos (by omega)]
    · rw [h, htens, if_neg (by omega), if_pos (by omega)]
    · rw [h, hones, if_neg (by omega), if_neg (by omega), if_pos (by omega)]
  · next hout => rw [if_neg (by omega), if_neg (by omega), if_neg (by omega)]

/-- Settles O47: the store is one block write, of three digits. -/
theorem storeBCDWritesThreeDigits : Obligations.StoreBCDWritesThreeDigits := by
  refine fun rx s h => ⟨_, exec_storeBCD_inside rx h, ?hundreds, ?tens, ?ones,
    keepsMemoryOutside_writeBytes s _ (bcdDigits (s.reg rx)), onlyMemory_update s _⟩
  case hundreds | tens | ones => simp [read_writeBytes_bcdDigits_toNat]

/-- A byte of memory after a DumpRegisters. -/
theorem read_writeBytes_regsUpTo (s : State) (rx : RegIx) (a : Nat) (a' : Nat) :
    (s.mem.writeBytes a (s.regsUpTo rx)).read a' =
      if a ≤ a' ∧ a' ≤ a + rx.toNat then s.reg (BitVec.ofNat 4 (a' - a)) else s.mem.read a' := by
  rw [read_writeBytes_eq_ite, regsUpTo_length]
  by_cases hin : a ≤ a' ∧ a' ≤ a + rx.toNat
  · have hlt : a' - a < (s.regsUpTo rx).length := by rw [regsUpTo_length]; omega
    rw [if_pos hin, if_pos (by omega), List.getD_eq_getElem _ _ hlt, regsUpTo_getElem]
  · rw [if_neg hin, if_neg (by omega)]

/-- Byte `k` of a dumped block is V[k] (R166). -/
theorem read_dump {s : State} {rx k : RegIx} (h : k.toNat ≤ rx.toNat) :
    (s.mem.writeBytes s.I.toNat (s.regsUpTo rx)).read (s.I.toNat + k.toNat) = s.reg k := by
  rw [read_writeBytes_regsUpTo, if_pos (by omega), Nat.add_sub_cancel_left, BitVec.ofNat_toNat, BitVec.setWidth_eq]

/-- Settles O48: a dump is one block write, of the registers up to rx. -/
theorem dumpRegistersCopiesOut : Obligations.DumpRegistersCopiesOut := by
  intro rx s h
  have houtside := keepsMemoryOutside_writeBytes s s.I.toNat (s.regsUpTo rx)
  rw [regsUpTo_length] at houtside
  exact ⟨_, exec_dumpRegisters_inside h, fun k hk => read_dump hk, houtside, onlyMemory_update s _⟩

/-! Loads inside memory -/

/-- A register after a load: the byte at its place in the block, or the old value above the block (R167). -/
theorem loadRegs_readBytes_reg (s : State) (m : Memory) (a n : Nat) (k : RegIx) :
    (s.loadRegs (m.readBytes a n)).reg k = if k.toNat < n then m.read (a + k.toNat) else s.reg k := by
  rw [loadRegs_reg]
  simp only [readBytes_length, readBytes_getElem]
  split <;> rfl

/-- Settles O49: a load writes the registers up to rx. -/
theorem loadRegistersCopiesIn : Obligations.LoadRegistersCopiesIn := by
  refine fun rx s h => ⟨_, exec_loadRegisters_inside h, fun k hk => ?loaded, fun k hk => ?kept, rfl,
    ⟨rfl, rfl, ⟨rfl, rfl⟩, fun _ _ => rfl, fun _ => rfl, rfl, rfl⟩, rfl, rfl⟩
  case loaded => rw [loadRegs_readBytes_reg, if_pos (Nat.lt_succ_of_le hk)]
  case kept => rw [loadRegs_readBytes_reg, if_neg (Nat.not_lt.2 hk)]

/-- Settles O51: the load reads the bytes the dump wrote. -/
theorem loadAfterDumpRestoresRegisters : Obligations.LoadAfterDumpRestoresRegisters := by
  intro rx s u h hI
  refine ⟨_, exec_dumpRegisters_inside h, fun hm => ⟨_, exec_loadRegisters_inside (by rwa [hI]), fun k hk => ?_⟩⟩
  rw [loadRegs_readBytes_reg, if_pos (Nat.lt_succ_of_le hk), hI, hm]
  exact read_dump hk

/-! Transfers past memory -/

/-- Settles O50: the range of each transfer is checked as a whole before anything is written. -/
theorem transfersPastMemoryRaise : Obligations.TransfersPastMemoryRaise :=
  fun _ _ => ⟨fun _ => exec_onlyRaises (rangeFault_eq_some (by decide) (by omega)),
    fun _ => exec_onlyRaises (rangeFault_eq_some (Nat.succ_ne_zero _) (by omega)),
    fun _ => exec_onlyRaises (rangeFault_eq_some (Nat.succ_ne_zero _) (by omega))⟩

/-! A stored byte is fetched next -/

/-- The word fetched is the two bytes at pc (R41, R81). -/
theorem fetch_toNat {s : State} (h : s.pc.toNat ≤ 4094) :
    ∃ w, s.fetch = .ok w ∧ w.toNat = 256 * (s.mem.read s.pc.toNat).toNat + (s.mem.read (s.pc.toNat + 1)).toNat :=
  ⟨_, fetch_ok h, wordOfBytes_toNat _ _⟩

/-- Settles O52: the fetch reads memory as the store left it, byte by byte. -/
theorem storedBytesAreFetchedNext : Obligations.StoredBytesAreFetchedNext := by
  intro s hpc
  refine ⟨fun rx h => ?bcd, fun rx h => ?dump, fun offset bytes h => ?host⟩
  case bcd =>
    obtain ⟨w, hw, hval⟩ := fetch_toNat (s := { s with mem := s.mem.writeBytes s.I.toNat (bcdDigits (s.reg rx)) }) hpc
    simp only [read_writeBytes_bcdDigits_toNat] at hval
    exact ⟨_, w, exec_storeBCD_inside rx h, hw, hval⟩
  case dump =>
    obtain ⟨w, hw, hval⟩ := fetch_toNat (s := { s with mem := s.mem.writeBytes s.I.toNat (s.regsUpTo rx) }) hpc
    simp only [read_writeBytes_regsUpTo] at hval
    exact ⟨_, w, exec_dumpRegisters_inside h, hw, hval⟩
  case host =>
    obtain ⟨w, hw, hval⟩ := fetch_toNat (s := { s with mem := s.mem.writeBytes offset bytes }) hpc
    simp only [read_writeBytes_eq_ite] at hval
    rw [hostWrite_ok s h]
    exact ⟨w, hw, hval⟩

end Sys2Proof.Machine
end

section
/-! Whole-machine rules: what a step may change and by which instruction (10_state.md; 40_step.md rule R87). Each is a
case analysis on the effects of the execute phase. -/

namespace Sys2Proof.Machine

theorem nextOp_of_fetch_error {s : State} {f : Fault} (h : s.fetch = .error f) : s.nextOp = none := by
  unfold State.nextOp
  rw [h]

/-- Everything a step can do, by its instruction: none executes and a fault is raised on the state before or after the
advance, or one executes after the advance (R80). -/
theorem step_by_nextOp {s t : State} (h : step s = .next t) :
    (s.nextOp = none ∧ ∃ f, t = s.beginStep.raise f ∨ t = s.beginStep.advance.raise f) ∨
      ∃ i, s.nextOp = some i ∧ exec i s.beginStep.advance = .next t := by
  obtain ⟨hpc, he⟩ | ⟨-, hop, w, -, -, he⟩ | ⟨-, w, i, -, -, hop, he⟩ := step_cases s
  · exact .inl ⟨nextOp_of_fetch_error (fetch_error hpc), _, .inl (next_unique h he)⟩
  · exact .inl ⟨hop, _, .inr (next_unique h he)⟩
  · exact .inr ⟨i, hop, he.symm.trans h⟩

/-- Settles O53: a store changes no byte outside its block. -/
theorem memoryChangesOnlyByStores : Obligations.MemoryChangesOnlyByStores := by
  intro s t a h hne
  have hin : ∀ bs : List Byte, (s.mem.writeBytes s.I.toNat bs).read a ≠ s.mem.read a →
      s.I.toNat ≤ a ∧ a < s.I.toNat + bs.length := fun bs hbs =>
    of_not_not (mt (keepsMemoryOutside_writeBytes s s.I.toNat bs a) hbs)
  obtain ⟨-, f, rfl | rfl⟩ | ⟨i, hop, he⟩ := step_by_nextOp h
  · exact absurd rfl hne
  · exact absurd rfl hne
  · cases exec_effect he with
    | storesDigits rx bs hi hl =>
      obtain ⟨hlo, hhi⟩ := hin bs hne
      exact ⟨rx, .inl ⟨hi ▸ hop, hlo, by omega⟩⟩
    | dumps rx bs hi hl =>
      obtain ⟨hlo, hhi⟩ := hin bs hne
      exact ⟨rx, .inr ⟨hi ▸ hop, hlo, by omega⟩⟩
    | _ => exact absurd rfl hne

/-- Settles O54: of the effects only a call and a return write the stack. -/
theorem stackChangesOnlyByCallAndReturn : Obligations.StackChangesOnlyByCallAndReturn := by
  intro s t h hne
  obtain ⟨-, f, rfl | rfl⟩ | ⟨i, hop, he⟩ := step_by_nextOp h
  · exact absurd rfl hne
  · exact absurd rfl hne
  · cases exec_effect he with
    | calls nnn hi => exact .inl ⟨nnn, _, hi ▸ hop, rfl⟩
    | returns v rest hi hs => exact .inr ⟨hi ▸ hop, v, hs⟩
    | _ => exact absurd rfl hne

/-- Settles O55: of the effects only a clear and a draw write the framebuffer. -/
theorem displayChangesOnlyByClearAndDraw : Obligations.DisplayChangesOnlyByClearAndDraw := by
  intro s t x y h hne
  obtain ⟨-, f, rfl | rfl⟩ | ⟨i, hop, he⟩ := step_by_nextOp h
  · exact absurd rfl hne
  · exact absurd rfl hne
  · cases exec_effect he with
    | clears hi => exact .inl (hi ▸ hop)
    | draws rx ry n _ _ _ hi => exact .inr ⟨rx, ry, n, hi ▸ hop⟩
    | _ => exact absurd rfl hne

/-- Settles O56: one effect for each of the three registers. -/
theorem specialRegistersChangeOnlyByTheirInstructions : Obligations.SpecialRegistersChangeOnlyByTheirInstructions := by
  intro s t h
  obtain ⟨-, f, rfl | rfl⟩ | ⟨i, hop, he⟩ := step_by_nextOp h
  · exact ⟨absurd rfl, absurd rfl, absurd rfl⟩
  · exact ⟨absurd rfl, absurd rfl, absurd rfl⟩
  · cases exec_effect he with
    | addr v hi =>
      rw [hop]
      exact ⟨fun _ => by simpa only [Option.some.injEq] using hi, absurd rfl, absurd rfl⟩
    | delay rx v hi => exact ⟨absurd rfl, fun _ => ⟨rx, hi ▸ hop⟩, absurd rfl⟩
    | sound rx v hi => exact ⟨absurd rfl, absurd rfl, fun _ => ⟨rx, hi ▸ hop⟩⟩
    | _ => exact ⟨absurd rfl, absurd rfl, absurd rfl⟩

/-- Settles O57: SetRegRandomMasked makes its request on every path, and no other effect makes one. -/
theorem randomRequestsOnlyByRandomMasked : Obligations.RandomRequestsOnlyByRandomMasked := by
  intro s t h
  obtain ⟨hop, f, rfl | rfl⟩ | ⟨i, hop, he⟩ := step_by_nextOp h
  · exact ⟨rfl, rfl, by simp [hop], fun _ => rfl⟩
  · exact ⟨rfl, rfl, by simp [hop], fun _ => rfl⟩
  · by_cases hi : ∃ rx kk, i = .setRegRandomMasked rx kk
    · obtain ⟨rx, kk, rfl⟩ := hi
      cases he
      exact ⟨rfl, rfl, fun _ => rfl, fun hno => absurd ⟨rx, kk, hop⟩ hno⟩
    · have hno : ¬ ∃ rx kk, s.nextOp = some (.setRegRandomMasked rx kk) := by simpa [hop] using hi
      cases exec_effect he with
      | random rx kk v hr => exact absurd ⟨rx, kk, hr⟩ hi
      | _ => exact ⟨rfl, rfl, fun hyes => absurd hyes hno, fun _ => rfl⟩

/-- An effect changes a register only where the instruction lists it as written (R11). -/
theorem Effect.regWrites {i : Instr} {s t : State} {r : RegIx} (he : Effect i s t) (hne : t.reg r ≠ s.reg r) :
    regWrites i r := by
  cases he with
  | flagged rx b v h hf =>
    rw [writeFlagged_reg] at hne
    split at hne
    · next hr => exact hr ▸ h
    · split at hne
      · next hr => exact hr ▸ hf
      · exact absurd rfl hne
  | register rx v h =>
    by_cases hr : r = rx
    · exact hr ▸ h
    · exact absurd (setReg_reg_ne s v hr) hne
  | random rx kk v h =>
    by_cases hr : r = rx
    · exact h ▸ hr
    · exact absurd (setReg_reg_ne s.randByte.2 v hr) hne
  | draws rx ry n x y rows h =>
    by_cases hr : r = vf
    · exact h ▸ hr
    · exact absurd ((composite_reg s x y rows r).trans (if_neg hr)) hne
  | loads rx bs h hl =>
    by_cases hr : r.toNat < bs.length
    · have hle : r.toNat ≤ rx.toNat := by omega
      exact h ▸ hle
    · exact absurd ((loadRegs_reg s bs r).trans (dif_neg hr)) hne
  | _ => exact absurd rfl hne

/-- Settles O58: an effect writes only registers the instruction lists. -/
theorem registersChangeOnlyAsListed : Obligations.RegistersChangeOnlyAsListed := by
  intro s t r h hne
  obtain ⟨-, f, rfl | rfl⟩ | ⟨i, hop, he⟩ := step_by_nextOp h
  · exact absurd rfl hne
  · exact absurd rfl hne
  · exact ⟨i, hop, (exec_effect he).regWrites hne⟩

/-! Where pc goes -/

/-- An effect leaves pc where it was, but for a skip and an instruction that gives pc a value of its own (R17). -/
theorem Effect.pc_eq {i : Instr} {s t : State} (he : Effect i s t) (hskip : ¬ isSkip i) (h : s.pcTarget i = none) :
    t.pc = s.pc := by
  cases he with
  | jumps nnn hi | jumpsPlus nnn hi =>
    subst hi
    cases h
  | stays hi | skips hi => exact absurd hi hskip
  | calls nnn hi hs =>
    subst hi
    simp [State.pcTarget, hs] at h
  | returns v rest hi hs =>
    subst hi
    simp [State.pcTarget, hs] at h
  | _ => rfl

/-- Where the execute phase leaves pc, for every instruction but the skips (R17). -/
theorem exec_pc {i : Instr} {s t : State} (h : exec i s = .next t) (hskip : ¬ isSkip i) :
    t.pc.toNat = (s.pcTarget i).getD s.pc.toNat := by
  cases hT : s.pcTarget i with
  | none => rw [(exec_effect h).pc_eq hskip hT, Option.getD_none]
  | some a =>
    cases i
    case jump nnn =>
      obtain rfl := Option.some.inj hT
      cases h
      exact addrOfConst_toNat nnn
    case jumpPlusOffset nnn =>
      obtain rfl := Option.some.inj hT
      cases h
      exact addrPlus_toNat nnn _
    case callSubroutine nnn =>
      obtain ⟨hs, ⟨⟩⟩ := Option.ite_none_left_eq_some.1 hT
      obtain rfl := next_unique h (exec_callSubroutine (Bool.eq_false_of_not_eq_true hs))
      exact addrOfConst_toNat nnn
    case ret =>
      obtain ⟨v, hv, rfl⟩ := Option.map_eq_some_iff.1 hT
      obtain ⟨rest, hs⟩ := List.head?_eq_some_iff.1 hv
      obtain rfl := next_unique h (exec_ret hs)
      rfl
    case skipIfRegEqConst | skipIfRegNeqConst | skipIfRegEqReg | skipIfRegNeqReg => simp [isSkip] at hskip
    all_goals cases hT

/-- The advance changes no target but those of the skips, which count from the skip's own address. -/
theorem pcTarget_advance (s : State) {i : Instr} (hskip : ¬ isSkip i) :
    s.beginStep.advance.pcTarget i = s.pcTarget i := by
  cases i
  case skipIfRegEqConst | skipIfRegNeqConst | skipIfRegEqReg | skipIfRegNeqReg => simp [isSkip] at hskip
  all_goals rfl

/-- Where a skip leaves pc, from its own address (R100). -/
theorem SkipsWhen.pc {i : Instr} {c : Prop} [Decidable c] {s t : State} (hi : SkipsWhen i c s.beginStep.advance)
    (hpc : s.pc.toNat ≤ 4094) (h : exec i s.beginStep.advance = .next t) :
    t.pc.toNat = (if c then some (s.pc.toNat + 4) else none).getD (s.pc.toNat + 2) := by
  obtain ⟨b, hb, he⟩ := hi.exec_eq
  obtain rfl := next_unique h (he.trans (skipIf_advance b s.beginStep))
  have hto : (s.pc + if b then 4#16 else 2#16).toNat = s.pc.toNat + if b then 4 else 2 := skipPc_toNat b hpc
  rw [setPc_pc, beginStep_pc, hto]
  by_cases hc : c
  · rw [if_pos hc, if_pos (hb.2 hc), Option.getD_some]
  · rw [if_neg hc, if_neg (mt hb.1 hc), Option.getD_none]

/-- Where an instruction leaves pc, from its own address (R17). -/
theorem exec_advance_pc {i : Instr} {s t : State} (hpc : s.pc.toNat ≤ 4094) (h : exec i s.beginStep.advance = .next t) :
    t.pc.toNat = (s.pcTarget i).getD (s.pc.toNat + 2) := by
  by_cases hskip : isSkip i
  · obtain ⟨rx, kk, rfl⟩ | ⟨rx, kk, rfl⟩ | ⟨rx, ry, rfl⟩ | ⟨rx, ry, rfl⟩ := hskip
    · exact SkipsWhen.pc (.inl ⟨rx, kk, rfl, Iff.rfl⟩) hpc h
    · exact SkipsWhen.pc (.inr (.inl ⟨rx, kk, rfl, Iff.rfl⟩)) hpc h
    · exact SkipsWhen.pc (.inr (.inr (.inl ⟨rx, ry, rfl, Iff.rfl⟩))) hpc h
    · exact SkipsWhen.pc (.inr (.inr (.inr ⟨rx, ry, rfl, Iff.rfl⟩))) hpc h
  · rw [exec_pc h hskip, pcTarget_advance s hskip, advance_pc_toNat (s := s.beginStep) hpc, beginStep_pc]

/-- Settles O59: a failed fetch leaves pc, an invalid word advances it, an instruction follows the table of R17. -/
theorem pcMovesOnlyAsListed : Obligations.PcMovesOnlyAsListed := by
  intro s t h
  obtain ⟨hpc, he⟩ | ⟨hpc, hop, w, -, -, he⟩ | ⟨hpc, w, i, -, -, hop, he⟩ := step_cases s
  · obtain rfl := next_unique h he
    rw [if_pos hpc]
    rfl
  · obtain rfl := next_unique h he
    rw [if_neg (by omega), hop]
    exact advance_pc_toNat (s := s.beginStep) hpc
  · rw [if_neg (by omega), hop]
    exact exec_advance_pc hpc (he.symm.trans h)

end Sys2Proof.Machine
end

section
/-! What a step answers (60_exceptions.md section 1): the word a fault reports, and the codes of the results. -/

namespace Sys2Proof.Machine

/-- The result of executing `i`: its fault, or Ok. -/
def State.resultOf (s : State) (i : Instr) : Result := (s.faultOf i).elim .ok .raised

theorem faultOf_advance (s : State) (i : Instr) : s.beginStep.advance.faultOf i = s.faultOf i := by
  cases i <;> rfl

theorem exec_result {i : Instr} {s t : State} (hok : s.result = .ok) (h : exec i s = .next t) :
    t.result = s.resultOf i := by
  obtain ⟨f, hf, he⟩ | ⟨hf, t', he, hk⟩ := exec_faults i s <;> obtain rfl := next_unique h he <;>
    rw [State.resultOf, hf]
  · rfl
  · exact hk.1.trans hok

/-- The result of every step (R180): of the fetch, of decoding, or of the instruction. -/
theorem step_result {s t : State} (h : step s = .next t) :
    (4095 ≤ s.pc.toNat ∧ s.nextOp = none ∧ t.result = .raised (.memoryOutOfBounds s.pc.toNat 2)) ∨
      (s.pc.toNat ≤ 4094 ∧ s.nextOp = none ∧
        ∃ w, s.fetch = .ok w ∧ decode w = .invalid w ∧ t.result = .raised (.invalidOpCode w)) ∨
      (s.pc.toNat ≤ 4094 ∧
        ∃ w i, s.fetch = .ok w ∧ decode w = .op i ∧ s.nextOp = some i ∧ t.result = s.resultOf i) := by
  obtain ⟨hpc, he⟩ | ⟨hpc, hop, w, hf, hd, he⟩ | ⟨hpc, w, i, hf, hd, hop, he⟩ := step_cases s
  · obtain rfl := next_unique h he
    exact .inl ⟨hpc, nextOp_of_fetch_error (fetch_error hpc), rfl⟩
  · obtain rfl := next_unique h he
    exact .inr (.inl ⟨hpc, hop, w, hf, hd, rfl⟩)
  · have hr := exec_result (s := s.beginStep.advance) rfl (he.symm.trans h)
    rw [State.resultOf, faultOf_advance] at hr
    exact .inr (.inr ⟨hpc, w, i, hf, hd, hop, hr⟩)

/-! The reported word -/

/-- The word a fault carries, where it carries one (R180). -/
def Fault.word : Fault → Option Word
  | .invalidOpCode w | .unsupportedOperation w | .stackOverflow w => some w
  | .memoryOutOfBounds _ _ | .invalidReturn | .displayOutOfBounds _ _ _ => none

theorem rangeFault_word {s : State} {n : Nat} {f : Fault} (h : s.rangeFault n = some f) : f.word = none := by
  obtain ⟨-, ⟨⟩⟩ := Option.ite_none_left_eq_some.1 h
  rfl

/-- The word an instruction's fault carries is the instruction's own. -/
theorem faultOf_word {s : State} {i : Instr} {f : Fault} {w : Word} (h : s.faultOf i = some f) (hw : f.word = some w) :
    w = encode i := by
  cases i
  case ret =>
    obtain ⟨-, ⟨⟩⟩ := Option.ite_none_right_eq_some.1 h
    cases hw
  case callSubroutine =>
    obtain ⟨-, ⟨⟩⟩ := Option.ite_none_right_eq_some.1 h
    exact (Option.some.inj hw).symm
  case draw =>
    obtain hr | ⟨-, hd⟩ := Option.or_eq_some_iff.1 h
    · cases hw.symm.trans (rangeFault_word hr)
    · obtain ⟨-, ⟨⟩⟩ := Option.ite_none_right_eq_some.1 hd
      cases hw
  case storeBCD | dumpRegisters | loadRegisters => cases hw.symm.trans (rangeFault_word h)
  case callMachineCode | keyPressed | keyNotPressed | waitKey | spriteAddressRegister =>
    cases h
    exact (Option.some.inj hw).symm
  all_goals cases h

/-- Settles O44: the word fetched is the word of the instruction it decodes to. -/
theorem reportedWordIsTheFetchedWord : Obligations.ReportedWordIsTheFetchedWord := by
  intro s t w w' hfetch h hraised
  obtain ⟨f, hr, hw⟩ : ∃ f, t.result = .raised f ∧ f.word = some w' := by
    obtain hr | hr | hr := hraised <;> exact ⟨_, hr, rfl⟩
  obtain ⟨-, -, hres⟩ | ⟨-, -, w₀, hf, -, hres⟩ | ⟨-, w₀, i, hf, hd, -, hres⟩ := step_result h
  · cases hr.symm.trans hres
    cases hw
  · cases hr.symm.trans hres
    exact (Option.some.inj hw).symm.trans (Except.ok.inj (hf.symm.trans hfetch))
  · obtain ⟨hencode, -⟩ := reads_of_decode hd
    rw [← Except.ok.inj (hf.symm.trans hfetch), ← hencode]
    cases hfault : s.faultOf i with
    | none => simp [State.resultOf, hfault, hr] at hres
    | some f' =>
      have hff : f = f' := by simpa [State.resultOf, hfault, hr] using hres
      exact faultOf_word (hff ▸ hfault) hw

/-! The codes -/

/-- The code of an instruction's result, where its only fault is a data access past memory. -/
theorem rangeFault_code (s : State) {n : Nat} (h : n ≠ 0) :
    ((s.rangeFault n).elim Result.ok .raised).code = if 4096 < s.I.toNat + n then 1 else 0 := by
  by_cases hout : 4096 < s.I.toNat + n
  · rw [rangeFault_eq_some h hout, if_pos hout]
    rfl
  · rw [rangeFault_eq_none fun _ => Nat.le_of_not_lt hout, if_neg hout]
    rfl

theorem resultOf_storeBCD_code (s : State) (rx : RegIx) :
    (s.resultOf (.storeBCD rx)).code = if 4095 < s.I.toNat + 2 then 1 else 0 := by
  rw [State.resultOf, State.faultOf, rangeFault_code s (by decide)]
  exact if_congr (by omega) rfl rfl

theorem resultOf_dumpRegisters_code (s : State) (rx : RegIx) :
    (s.resultOf (.dumpRegisters rx)).code = if 4095 < s.I.toNat + rx.toNat then 1 else 0 := by
  rw [State.resultOf, State.faultOf, rangeFault_code s (by omega)]
  exact if_congr (by omega) rfl rfl

theorem resultOf_loadRegisters_code (s : State) (rx : RegIx) :
    (s.resultOf (.loadRegisters rx)).code = if 4095 < s.I.toNat + rx.toNat then 1 else 0 :=
  resultOf_dumpRegisters_code s rx

theorem resultOf_ret_code (s : State) : (s.resultOf .ret).code = if s.stack = [] then 3 else 0 := by
  rw [State.resultOf, State.faultOf]
  split <;> rfl

theorem resultOf_callSubroutine_code (s : State) (nnn : Addr12) :
    (s.resultOf (.callSubroutine nnn)).code = if s.stackFull then 6 else 0 := by
  rw [State.resultOf, State.faultOf]
  split <;> rfl

/-- Memory before the grid (R189). -/
theorem resultOf_draw_code (s : State) (rx ry : RegIx) (n : Nibble) :
    (s.resultOf (.draw rx ry n)).code =
      if 1 ≤ n.toNat ∧ 4096 < s.I.toNat + n.toNat then 1
      else if 1 ≤ n.toNat ∧ ((s.reg rx).toNat > 56 ∨ (s.reg ry).toNat + n.toNat > 32) then 5 else 0 := by
  rw [State.resultOf, State.faultOf]
  by_cases hmem : 1 ≤ n.toNat ∧ 4096 < s.I.toNat + n.toNat
  · rw [rangeFault_eq_some (by omega) hmem.2, if_pos hmem]
    rfl
  · rw [rangeFault_eq_none (by omega), if_neg hmem, Option.none_or]
    have hgrid : drawOutOfBounds (s.reg rx).toNat (s.reg ry).toNat n.toNat = true ↔
        1 ≤ n.toNat ∧ ((s.reg rx).toNat > 56 ∨ (s.reg ry).toNat + n.toNat > 32) := by
      rw [← Bool.not_eq_false, drawOutOfBounds_eq_false]
      omega
    simp only [hgrid]
    split <;> rfl

/-- For each code from 1 on, the instructions that answer it and when (R181, R183 to R186). -/
theorem resultOf_code (s : State) (i : Instr) :
    (s.resultOf i).code ≤ 6 ∧ (s.resultOf i).code ≠ 2 ∧
    ((s.resultOf i).code = 1 ↔ (∃ rx ry n, i = .draw rx ry n ∧ 1 ≤ n.toNat ∧ 4096 < s.I.toNat + n.toNat) ∨
      (∃ rx, i = .storeBCD rx ∧ 4095 < s.I.toNat + 2) ∨
      ∃ rx, (i = .dumpRegisters rx ∨ i = .loadRegisters rx) ∧ 4095 < s.I.toNat + rx.toNat) ∧
    ((s.resultOf i).code = 3 ↔ i = .ret ∧ s.stack = []) ∧
    ((s.resultOf i).code = 4 ↔ isUnsupported i) ∧
    ((s.resultOf i).code = 5 ↔ ∃ rx ry n, i = .draw rx ry n ∧ 1 ≤ n.toNat ∧ s.I.toNat + n.toNat ≤ 4096 ∧
      ((s.reg rx).toNat > 56 ∨ (s.reg ry).toNat + n.toNat > 32)) ∧
    ((s.resultOf i).code = 6 ↔ ∃ nnn d, i = .callSubroutine nnn ∧ s.stackDepth = some d ∧ d ≤ s.stack.length) := by
  cases i
  case ret =>
    rw [resultOf_ret_code]
    split <;> simp [isUnsupported, *]
  case callSubroutine =>
    rw [resultOf_callSubroutine_code]
    split <;> simp [isUnsupported, ← stackFull_iff, *]
  case draw rx ry n =>
    rw [resultOf_draw_code]
    split
    · simp [isUnsupported, *]
    · split <;> simp [isUnsupported, *] <;> omega
  case storeBCD =>
    rw [resultOf_storeBCD_code]
    split <;> simp [isUnsupported, *]
  case dumpRegisters =>
    rw [resultOf_dumpRegisters_code]
    split <;> simp [isUnsupported, *]
  case loadRegisters =>
    rw [resultOf_loadRegisters_code]
    split <;> simp [isUnsupported, *]
  case callMachineCode | keyPressed | keyNotPressed | waitKey | spriteAddressRegister =>
    rw [show (s.resultOf _).code = 4 from rfl]
    simp [isUnsupported]
  all_goals
    rw [show (s.resultOf _).code = 0 from rfl]
    simp [isUnsupported]

/-- Settles O60: the fetch answers 1, decoding 2, and an instruction the code of its own fault. -/
theorem resultCodesTellWhatWasRaised : Obligations.ResultCodesTellWhatWasRaised := by
  refine ⟨⟨rfl, fun _ _ _ _ _ _ => rfl⟩, fun s t h => ?_⟩
  obtain ⟨hpc, hop, hr⟩ | ⟨hpc, hop, w, hf, hd, hr⟩ | ⟨hpc, w, i, hf, hd, hop, hr⟩ := step_result h
  case inl =>
    have hfetch : s.fetch = .error _ := fetch_error hpc
    simp [hr, hop, hpc, hfetch, Result.code, Fault.code]
  case inr.inl =>
    have hin : ¬ 4095 ≤ s.pc.toNat := by omega
    simp [hr, hop, hin, hf, hd, Result.code, Fault.code]
  case inr.inr =>
    have hin : ¬ 4095 ≤ s.pc.toNat := by omega
    obtain ⟨hle, hne2, h1, h3, h4, h5, h6⟩ := resultOf_code s i
    rw [hr, hop]
    simp only [Option.some.injEq, hin, false_or]
    refine ⟨hle, h1, ?_, h3, ?_, h5, h6⟩
    · simp [hne2, hf, hd]
    · simpa using h4

end Sys2Proof.Machine
end
